-- ==== Sys2Proof/Word.lean ====
section
/-! DEFINITION. The two bit-vector types the spec uses: a 32-bit unsigned element, offset or
difference (R6), and a byte of the host's copy of a chunk (R36). Every value is unsigned
(00_scope.md, section 6). -/

namespace Sys2Proof

/-- One unsigned 32-bit quantity: an element, the offset, a difference, a lane of `ACC` (R6). -/
abbrev Word := BitVec 32

/-- One byte of the host's image of a chunk (R36); the unit itself never handles bytes. -/
abbrev Byte := BitVec 8

end Sys2Proof
end

