-- ==== Sys2Proof/Config.lean ====
section
/-! DEFINITION. What is fixed when the unit is built (00_scope.md, section 5): the block length (R6),
the parameter `LANES` with its eight admitted values (R7), and the sizes derived from it (R8).
Nothing in the unit is left to a free value: every step is a total function of state and inputs
(R12, R95). -/

namespace Sys2Proof

/-- The eight admitted values of `LANES` (R7): the powers of two that divide 128. -/
inductive Variant where
  | l1 | l2 | l4 | l8 | l16 | l32 | l64 | l128
deriving DecidableEq, Repr

/-- The number of levels of the reduction tree, `log2(LANES)` (R70). -/
def Variant.levels : Variant → Nat
  | .l1 => 0
  | .l2 => 1
  | .l4 => 2
  | .l8 => 3
  | .l16 => 4
  | .l32 => 5
  | .l64 => 6
  | .l128 => 7

/-- The block length `N`, fixed by the source (R6). -/
abbrev Config.blockLength : Nat := 128

/-- `LANES`: the number of 32-bit elements taken by one `ACC` (R7). -/
def Variant.lanes (v : Variant) : Nat := 2 ^ v.levels

/-- `CHUNKS = 128 / LANES`: the number of `ACC` commands that carry one block (R8). -/
def Variant.chunks (v : Variant) : Nat := Config.blockLength / v.lanes

/-- `DW = 32 * LANES`: the width of `cmd_data` (R8). -/
def Variant.dw (v : Variant) : Nat := 32 * v.lanes

/-- `CW = log2(CHUNKS) + 1`: the width of `CNT` and of the port `cnt` (R8). -/
def Variant.cw (v : Variant) : Nat := Nat.log2 v.chunks + 1

/-- The width of a command word, `DW + 2` (R47). -/
abbrev Variant.commandBits (v : Variant) : Nat := v.dw + 2

/-- This hardware: `LANES = 128` (R7). -/
abbrev Config.variant : Variant := .l128

end Sys2Proof
end

