-- ==== Sys2Proof/Syntax.lean ====
section
/-! DEFINITION. The command set (R49, spec/opcode_table.json) as syntax, the input ports sampled at one
rising edge of `clk` (R23, R29), and the kinds of step those inputs select (R56). -/

namespace Sys2Proof

/-- The four commands, one constructor per row of the opcode table (R49).
The same syntax serves every admitted `LANES`: `WellFormed` ties an `acc` to one of them. -/
inductive Instr where
  /-- `NOP` (R94): no operand. -/
  | nop
  /-- `SETOFF off` (R77): the unsigned 32-bit offset. -/
  | setoff (off : Word)
  /-- `ACC e_0, ..., e_(LANES-1)` (R81): the elements, lane 0 first. -/
  | acc (elems : List Word)
  /-- `FIN` (R88): no operand. -/
  | fin
deriving DecidableEq, Repr

/-- The input of one step (R29): the ports of R23 as sampled at one rising edge of `clk`.
`clk` itself is no field: a step IS one rising edge. -/
structure Input (v : Variant) where
  /-- `rst`: synchronous reset, active high, with priority over any command. -/
  rst : Bool
  /-- `cmd_valid`: a command is presented at this edge. -/
  cmdValid : Bool
  /-- `cmd_op`: the opcode. -/
  cmdOp : BitVec 2
  /-- `cmd_data`: the operand, `DW` bits. -/
  cmdData : BitVec v.dw
deriving DecidableEq, Repr

/-- The step kinds of R56: a reset step, or one of the four commands
(`cmd_valid = 0` selects `NOP`). -/
inductive StepKind where
  /-- `Reset`: `rst = 1`. -/
  | reset
  /-- `Nop`, `SetOff o`, `Acc v` or `Fin`. -/
  | command (i : Instr)
deriving DecidableEq, Repr

/-- No command: `cmd_valid = 0` and `rst = 0`, the other ports driven to 0 (R53). -/
def Input.idle (v : Variant) : Input v := ⟨false, false, 0, 0⟩

end Sys2Proof
end

