-- ==== Sys2Proof/WellFormed.lean ====
section
/-! DEFINITION. Which terms of the syntax are commands of a unit with a given `LANES`. The offset of a
`SETOFF` is any 32-bit value (R79) and the elements of an `ACC` are any 32-bit values (R51), so the one
thing to check is that an `ACC` has exactly `LANES` of them (R48, R57). -/

namespace Sys2Proof

/-- The check: an `acc` carries exactly `LANES` elements (R48, R57); nothing else can be ill-formed
(R54). -/
def wellFormed (v : Variant) : Instr → Bool
  | .nop => true
  | .setoff _ => true
  | .acc elems => elems.length == v.lanes
  | .fin => true

/-- `i` is a command of the unit with this `LANES`. -/
abbrev WellFormed (v : Variant) (i : Instr) : Prop := wellFormed v i = true

end Sys2Proof
end

