-- ==== Sys2Proof/Decode.lean ====
section
/-! DEFINITION. Decoding (R47 to R56) and, after it, encoding. A command is the pair
`(cmd_op, cmd_data)`; as one word it is `cmdword = {cmd_data, cmd_op}` (R47). The decoder is total and
rejects nothing, because the opcode map is complete and the bits a command does not read are don't-care
(R49, R54): there is no reserved encoding for it to refuse by name. -/

namespace Sys2Proof

/-! ## Fields -/

/-- `lane(d, j) = d[32*j + 31 : 32*j]` (R34). -/
def lane (v : Variant) (d : BitVec v.dw) (j : Nat) : Word := d.extractLsb' (32 * j) 32

/-- The elements `e_0, ..., e_(LANES-1)` of a data word, lane 0 first (R51). -/
def lanesOf (v : Variant) (d : BitVec v.dw) : List Word := (List.range v.lanes).map (lane v d)

/-- Field `off = cmd_data[31:0]` (R50). -/
def offsetField (v : Variant) (d : BitVec v.dw) : Word := d.extractLsb' 0 32

/-! ## Decoding -/

/-- The opcode map of R49. The last branch is `0b11`: the map is complete. -/
def decodeCommand (v : Variant) (op : BitVec 2) (d : BitVec v.dw) : Instr :=
  if op = 0b00#2 then .nop
  else if op = 0b01#2 then .setoff (offsetField v d)
  else if op = 0b10#2 then .acc (lanesOf v d)
  else .fin

/-- The command a command word stands for: opcode in bits `[1:0]`, operand in bits `[DW+1:2]`
(R47, R48). -/
def decodeWord (v : Variant) (w : BitVec v.commandBits) : Instr :=
  decodeCommand v (w.extractLsb' 0 2) (w.extractLsb' 2 v.dw)

/-- R56: from the sampled inputs to a step kind. Reset wins, then the absence of a command (which is
`NOP`), then the opcode. -/
def decodeInput (v : Variant) (inp : Input v) : StepKind :=
  if inp.rst then .reset
  else if inp.cmdValid then .command (decodeCommand v inp.cmdOp inp.cmdData)
  else .command .nop

/-- The inputs by which a command word is presented: `rst = 0`, `cmd_valid = 1` (R47). -/
def presentWord (v : Variant) (w : BitVec v.commandBits) : Input v :=
  ⟨false, true, w.extractLsb' 0 2, w.extractLsb' 2 v.dw⟩

/-! ## The opcode table's numbering -/

/-- The command word of this hardware whose low `nbits` bits are `w` and whose other bits are 0.
The table numbers `cmdword` from bit 0, the low opcode bit, as R47 does. -/
def tableWord (nbits w : Nat) : BitVec Config.variant.commandBits :=
  (BitVec.ofNat nbits w).setWidth Config.variant.commandBits

/-- What the decoder reads from a word of spec/opcode_table.json, for this hardware. It refuses none
(R54). -/
def decodeTableWord (nbits w : Nat) : Option Instr :=
  some (decodeWord Config.variant (tableWord nbits w))

/-! ## Encoding -/

/-- The number whose base `2^32` digits are the elements, lane 0 least significant (R59). -/
def packLanes : List Word → Nat
  | [] => 0
  | e :: es => e.toNat + 2 ^ 32 * packLanes es

/-- `cmd_op` of a command (R49). -/
def opcode : Instr → BitVec 2
  | .nop => 0b00#2
  | .setoff _ => 0b01#2
  | .acc _ => 0b10#2
  | .fin => 0b11#2

/-- `cmd_data` of a command; the bits it does not read are driven to 0 (R57). -/
def operand (v : Variant) : Instr → BitVec v.dw
  | .nop => 0
  | .setoff off => off.setWidth v.dw
  | .acc elems => BitVec.ofNat v.dw (packLanes elems)
  | .fin => 0

/-- The command word `{cmd_data, cmd_op}` of a command (R47). -/
def encode (v : Variant) (i : Instr) : BitVec v.commandBits := operand v i ++ opcode i

/-- The inputs by which a host presents a command (R47). -/
def present (v : Variant) (i : Instr) : Input v := ⟨false, true, opcode i, operand v i⟩

end Sys2Proof
end

