-- ==== Sys2Proof/Machine/Datapath.lean ====
section
/-! DEFINITION. The pure functions of the datapath (40_datapath_functions.md): subtraction, OR,
leading-zero count, bit width, the horizontal reduction with its reference tree, and the function of
the whole block. No signed operation exists anywhere in the unit. -/

namespace Sys2Proof.Machine

/-- `sub32(a, b) = (a - b) mod 2^32` (R61): no borrow, no flag, no trap. -/
def sub32 (a b : Word) : Word := a - b

/-- `or32(a, b)`: bitwise OR (R63). -/
def or32 (a b : Word) : Word := a ||| b

/-- The unsigned maximum of two values, used by the permitted implementation of R73. -/
def max32 (a b : Word) : Word := if a.toNat ≤ b.toNat then b else a

/-- The number of consecutive 0 bits of `x` from bit `n - 1` downwards. -/
def leadingZeros (x : Word) : Nat → Nat
  | 0 => 0
  | n + 1 => if x.getLsbD n then 0 else leadingZeros x n + 1

/-- `clz32(x)` (R65): the count from bit 31 down, 32 for `x = 0`. -/
def clz32 (x : Word) : Nat := leadingZeros x 32

/-- `bw32(x) = 32 - clz32(x)` (R66). -/
def bw32 (x : Word) : Nat := 32 - clz32 x

/-- The OR of a finite sequence of values, 0 for the empty one (R64). -/
def orAll (xs : List Word) : Word := xs.foldr or32 0

/-- The unsigned maximum of a finite sequence of values, 0 for the empty one (R72). -/
def maxAll (xs : List Word) : Word := xs.foldr max32 0

/-- `hor(v)`: the OR of all lanes (R69). -/
def hor {n : Nat} (v : Vector Word n) : Word := orAll v.toList

/-- The horizontal maximum, used by the permitted implementation of R73. -/
def horMax {n : Nat} (v : Vector Word n) : Word := maxAll v.toList

/-- One level of the reduction tree: lane `j` with lane `j + h` (R70). -/
def treeLevel (k : Nat) (t : Vector Word (2 ^ (k + 1))) : Vector Word (2 ^ k) :=
  Vector.ofFn fun j : Fin (2 ^ k) =>
    or32 (t[j.val]'(by rw [Nat.pow_succ]; omega)) (t[j.val + 2 ^ k]'(by rw [Nat.pow_succ]; omega))

/-- The reference structure of the horizontal reduction: a balanced binary tree of `k` levels (R70).
The unit's `FIN` is defined by `hor`; that the two agree is a claim, not a definition. -/
def horTree : (k : Nat) → Vector Word (2 ^ k) → Word
  | 0, t => t[0]'(by simp)
  | k + 1, t => horTree k (treeLevel k t)

/-- A block: exactly 128 unsigned 32-bit elements (R6). -/
abbrev Block := Vector Word Config.blockLength

/-- `maxbits_FOR(o, B)` (R74): the bit width of the OR of all offset-reduced elements. -/
def maxbitsFOR (o : Word) (B : Block) : Nat := bw32 (orAll (B.toList.map fun b => sub32 b o))

end Sys2Proof.Machine
end

