-- ==== Sys2Proof/Machine/State.lean ====
section
/-! DEFINITION. The state of the machine: the five registers of the unit (R11, R29, 10_state.md
section 1) and, because one step of the model takes a state alone, the inputs the host drives at the
coming clock edges. The unit has no memory (R31), no general register (R13), no program counter (R18),
no control or status register in an address space (R22) and no hidden state (R25), so nothing else
stands here. -/

namespace Sys2Proof.Machine

/-- The registers of the unit, for any admitted `LANES` (R29). -/
structure Regs (v : Variant) where
  /-- `OFF`, 32 bits: the offset every lane subtracts (R14). -/
  off : Word
  /-- `ACC[0..LANES-1]`, 32 bits each: the running OR of the differences of each lane (R15). -/
  acc : Vector Word v.lanes
  /-- `CNT`, `CW` bits: the number of accepted `ACC` since the last `SETOFF` (R18). -/
  cnt : BitVec v.cw
  /-- `RES`, 6 bits: the last bit width computed by `FIN` (R16). -/
  res : BitVec 6
  /-- `RV`, 1 bit: `RES` is the bit width of the present `ACC` (R19). -/
  rv : Bool
deriving DecidableEq, Repr

/-- The reset values of the registers: all zero (R27). -/
def Regs.reset (v : Variant) : Regs v where
  off := 0
  acc := Vector.replicate v.lanes 0
  cnt := 0
  res := 0
  rv := false

/-- The reasons a step stops with a fault: none. The unit has no error channel and its set of
exception causes is empty (R107, R109), so no arm of the model raises a fault and the type has no
constructor. Safe: it allows nothing the unit does not do. -/
inductive Fault where
deriving DecidableEq, Repr

/-- The reasons a step gives no meaning: none is ever given, as no input is refused (R95, R109). -/
inductive Refusal where
  /-- An instruction without a meaning yet. Raised by no arm of `exec`: all four commands have their
  meaning. Safe: a step that stops proves nothing about the unit. -/
  | notModelled (mnemonic : String)
deriving DecidableEq, Repr

/-- The state of this hardware (`LANES = 128`, R7) and of the host's schedule. -/
structure State where
  /-- The registers of the unit (R29). -/
  regs : Regs Config.variant
  /-- The MODEL's own field, not the unit's (assumption log, entry 1): the values the host drives on
  the input ports (R23) at the coming rising edges of `clk`, the next edge first (R42). At an edge for
  which nothing is listed no command is presented (assumption log, entry 2). -/
  inputs : List (Input Config.variant)
deriving DecidableEq, Repr

/-- Right after a reset step (R27, R123): all registers zero, and the unit waits for commands. -/
def State.reset : State where
  regs := Regs.reset Config.variant
  inputs := []

/-- The state with other registers. -/
def State.withRegs (s : State) (r : Regs Config.variant) : State := { s with regs := r }

/-- The state with another schedule of inputs. -/
def State.withInputs (s : State) (l : List (Input Config.variant)) : State := { s with inputs := l }

end Sys2Proof.Machine
end

