-- ==== Sys2Proof/Machine/Operands.lean ====
section
/-! DEFINITION. Every operand form: the `LANES` elements of an `ACC` (R51), the byte image of a chunk in
the host's memory (R36), and the chunk of a block that the `k`-th accepted `ACC` carries (R35). The one
other operand, the offset of `SETOFF`, is a plain 32-bit value (R50). -/

namespace Sys2Proof.Machine

/-- The elements of an `ACC` as lanes (R51, R82). For a well-formed `acc` lane `j` is element `j`. A
list of another length is no command; its lanes are those of the word it encodes to, a missing one 0
(assumption log, entry 5). -/
def laneOperand (v : Variant) (elems : List Word) : Vector Word v.lanes :=
  ⟨((elems ++ List.replicate v.lanes 0).take v.lanes).toArray, by simp⟩

/-- The number a little-endian byte sequence stands for (R36). -/
def littleEndian : List Byte → Nat
  | [] => 0
  | b :: bs => b.toNat + 2 ^ 8 * littleEndian bs

/-- The port value a host forms from the bytes of a chunk at increasing addresses (R36): byte `t` is
`cmd_data[8*t + 7 : 8*t]`. -/
def dataOfBytes (v : Variant) (m : List Byte) : BitVec v.dw := BitVec.ofNat v.dw (littleEndian m)

/-- The chunk carried when `CNT = k`: `B[k*LANES], ..., B[k*LANES + LANES - 1]` (R35). -/
def chunk (v : Variant) (B : Block) (k : Nat) : List Word := (B.toList.drop (k * v.lanes)).take v.lanes

end Sys2Proof.Machine
end

