-- ==== Sys2Proof/Machine/Flags.lean ====
section
/-! DEFINITION. The flags and the output ports. `RV` is a register (R19) and is written by the
operations of Ops.lean. `FULL` is computed from `CNT` (R20). There are no condition codes: the
subtractors leave no borrow, carry, overflow, sign or zero flag (R21). The output ports are functions of
the state alone (R24). -/

namespace Sys2Proof.Machine

/-- `FULL = 1` exactly when `CNT = CHUNKS` (R20). -/
def full {v : Variant} (r : Regs v) : Bool := r.cnt.toNat == v.chunks

/-- An `ACC` performed now is accepted: `CNT < CHUNKS` (R81). -/
def accepts {v : Variant} (r : Regs v) : Bool := decide (r.cnt.toNat < v.chunks)

/-- What `RV = 1` asserts of the registers: `RES = bw32(hor(ACC))` (R19). -/
abbrev ResultCurrent {v : Variant} (r : Regs v) : Prop := r.res.toNat = bw32 (hor r.acc)

/-- The four output ports (R24, R29). -/
structure Outputs (v : Variant) where
  /-- Port `res`. -/
  res : BitVec 6
  /-- Port `res_valid`. -/
  resValid : Bool
  /-- Port `cnt`. -/
  cnt : BitVec v.cw
  /-- Port `full`. -/
  full : Bool
deriving DecidableEq, Repr

/-- The values shown on the output ports (R24). -/
def outputs {v : Variant} (r : Regs v) : Outputs v := ⟨r.res, r.rv, r.cnt, full r⟩

/-- The value returned to the caller, `zext_32(res)` (R16, R89, R98). -/
def returnedValue {v : Variant} (o : Outputs v) : Word := o.res.setWidth 32

end Sys2Proof.Machine
end

