-- ==== Sys2Proof/Machine/Ops.lean ====
section
/-! DEFINITION. The named operations over the registers, one per kind of step (R17), for any admitted
`LANES`, and the operations over the host's schedule of inputs. There is no taking of an exception and
no return from one to model: the unit has no exception, no interrupt and no trap mechanism
(R107, R110, R112, R113), so no operation here stands for either. -/

namespace Sys2Proof.Machine

/-! ## The registers -/

/-- `SETOFF` on the registers (R77): latch the offset, clear `ACC`, `CNT` and `RV`, keep `RES`. -/
def startBlock {v : Variant} (off : Word) (r : Regs v) : Regs v :=
  { r with off := off, acc := Vector.replicate v.lanes 0, cnt := 0, rv := false }

/-- A function of two lanes, applied to every lane independently (R82). Over the lists of lanes, so that
the kernel evaluates it in one pass. -/
def lanewise {n : Nat} (f : Word → Word → Word) (a b : Vector Word n) : Vector Word n :=
  ⟨(List.zipWith f a.toList b.toList).toArray, by simp⟩

/-- The new lanes of an accepted `ACC` (R81): every lane ORs in its own wrapped difference. -/
def accumulateLanes {n : Nat} (off : Word) (acc e : Vector Word n) : Vector Word n :=
  lanewise (fun a x => or32 a (sub32 x off)) acc e

/-- `ACC` on the registers (R81): accepted while `CNT < CHUNKS`, otherwise dropped without a trace
(R83). No element is compared with the offset (R84). -/
def accumulate {v : Variant} (e : Vector Word v.lanes) (r : Regs v) : Regs v :=
  if accepts r then { r with acc := accumulateLanes r.off r.acc e, cnt := r.cnt + 1, rv := false }
  else r

/-- `FIN` on the registers (R88): the bit width of the reduced accumulator, whatever `CNT` is (R90). -/
def finish {v : Variant} (r : Regs v) : Regs v :=
  { r with res := BitVec.ofNat 6 (bw32 (hor r.acc)), rv := true }

/-! ## The host's schedule -/

/-- The inputs sampled at the next rising edge: the first scheduled ones, and no command where none is
scheduled (R53; assumption log, entry 2). -/
def sampledInput (s : State) : Input Config.variant := s.inputs.headD (Input.idle Config.variant)

/-- The state in which the sampled inputs take effect: that edge is no longer ahead (R42). -/
def afterSample (s : State) : State := s.withInputs s.inputs.tail

/-- The reset step (R121, R27): every register at its reset value, whatever the other inputs are. -/
def resetStep (s : State) : State := s.withRegs (Regs.reset Config.variant)

end Sys2Proof.Machine
end

