-- ==== Sys2Proof/Machine/NoOperation.lean ====
section
/-! DEFINITION. The no-operation family (44_nop_and_transaction.md). -/

namespace Sys2Proof.Machine

/-- `NOP` (R94): no register changes. -/
def execNop (s : State) : Host.Outcome State Fault Refusal := .next s

end Sys2Proof.Machine
end

