-- ==== Sys2Proof/Machine/OffsetBroadcast.lean ====
section
/-! DEFINITION. The offset broadcast family (41_setoff.md). -/

namespace Sys2Proof.Machine

/-- `SETOFF off` (R77): legal in every state and for every offset (R79). -/
def execSetoff (off : Word) (s : State) : Host.Outcome State Fault Refusal :=
  .next (s.withRegs (startBlock off s.regs))

end Sys2Proof.Machine
end

