-- ==== Sys2Proof/Machine/ReduceFinish.lean ====
section
/-! DEFINITION. The reduce and finish family (43_fin.md). -/

namespace Sys2Proof.Machine

/-- `FIN` (R88): legal in every state, and does not look at `CNT` (R90). -/
def execFin (s : State) : Host.Outcome State Fault Refusal := .next (s.withRegs (finish s.regs))

end Sys2Proof.Machine
end

