-- ==== Sys2Proof/Machine/VectorAccumulate.lean ====
section
/-! DEFINITION. The vector subtract and accumulate family (42_acc.md). -/

namespace Sys2Proof.Machine

/-- `ACC e_0, ..., e_(LANES-1)` (R81, R83): legal in every state and for every element (R84, R85). -/
def execAcc (elems : List Word) (s : State) : Host.Outcome State Fault Refusal :=
  .next (s.withRegs (accumulate (laneOperand Config.variant elems) s.regs))

end Sys2Proof.Machine
end

