-- ==== Sys2Proof/Machine/Dispatch.lean ====
section
/-! DEFINITION. One arm per command of the opcode table (R49), each a call of its meaning. -/

namespace Sys2Proof.Machine

def exec (i : Instr) (s : State) : Host.Outcome State Fault Refusal :=
  match i with
  | .nop => Sys2Proof.Machine.execNop s
  | .setoff off => Sys2Proof.Machine.execSetoff off s
  | .acc elems => Sys2Proof.Machine.execAcc elems s
  | .fin => Sys2Proof.Machine.execFin s

end Sys2Proof.Machine
end

