-- ==== Sys2Proof/Machine/Step.lean ====
section
/-! DEFINITION. One step of the machine: one rising edge of `clk` (R42, R95). -/

namespace Sys2Proof.Machine

/-- One rising edge of `clk` (R95): sample the inputs, decode them (R56), perform the step they select. -/
def step (s : State) : Host.Outcome State Fault Refusal :=
  match decodeInput Config.variant (sampledInput s) with
  | .reset => .next (resetStep (afterSample s))
  | .command i => exec i (afterSample s)

/-- The state in which the host drives the command word of a table word at the very next edge; the
inputs of the later edges and the registers are as they were (assumption log, entry 3). -/
def State.withFetchWord (s : State) (nbits w : Nat) : State :=
  s.withInputs (presentWord Config.variant (tableWord nbits w) :: s.inputs.tail)

end Sys2Proof.Machine
end

