-- ==== Sys2Proof/Machine/UnitStep.lean ====
section
/-! DEFINITION. The step function of R95 over the registers alone, for EVERY admitted `LANES`: the model
takes `LANES` as an argument restricted to the eight admitted values (R7). The machine of Step.lean is
this hardware, `LANES = 128`; it performs the same operations of Ops.lean. -/

namespace Sys2Proof.Machine

/-- The effect of a command on the registers (R77, R81, R88, R94). -/
def runCommand (v : Variant) (i : Instr) (r : Regs v) : Regs v :=
  match i with
  | .nop => r
  | .setoff off => startBlock off r
  | .acc elems => accumulate (laneOperand v elems) r
  | .fin => finish r

/-- `step(s, i)` of R95: the registers after a rising edge at which the inputs `inp` are sampled. -/
def unitStep (v : Variant) (r : Regs v) (inp : Input v) : Regs v :=
  match decodeInput v inp with
  | .reset => Regs.reset v
  | .command i => runCommand v i r

/-- The registers after a sequence of edges: the fold of the step function (R42). -/
def unitRun (v : Variant) (r : Regs v) (ins : List (Input v)) : Regs v := ins.foldl (unitStep v) r

end Sys2Proof.Machine
end

