-- ==== Sys2Proof/Machine/Transaction.lean ====
section
/-! DEFINITION. The transaction `T(o, B)`, the command sequence that realises one call of `maxbits_FOR`
(R58, R97), and the input sequences that perform it with fillers in between (R97, R99, R136). -/

namespace Sys2Proof.Machine

/-- The commands of `T(o, B)`: `SETOFF o`, the `CHUNKS` chunks in order, `FIN` (R58, R97). -/
def transaction (v : Variant) (o : Word) (B : Block) : List Instr :=
  .setoff o :: ((List.range v.chunks).map fun k => .acc (chunk v B k)) ++ [.fin]

/-- A filler of R97 at a point where `n` chunks have been accepted: a `NOP` or idle edge, a `FIN`, or
an `ACC` that is dropped because all `CHUNKS` have been accepted. -/
def isFiller (v : Variant) (n : Nat) (inp : Input v) : Bool :=
  match decodeInput v inp with
  | .command .nop => true
  | .command .fin => true
  | .command (.acc _) => n == v.chunks
  | .command (.setoff _) => false
  | .reset => false

/-- `ins` presents the chunks `n, n+1, ..., n + m - 1` of `B` in order, with fillers anywhere between
and around them. -/
def presentsChunks (v : Variant) (B : Block) (n : Nat) : (m : Nat) → List (Input v) → Bool
  | 0, [] => true
  | _ + 1, [] => false
  | 0, inp :: rest => isFiller v n inp && presentsChunks v B n 0 rest
  | m + 1, inp :: rest =>
    (isFiller v n inp && presentsChunks v B n (m + 1) rest) ||
      (decide (decodeInput v inp = .command (.acc (chunk v B n))) && presentsChunks v B (n + 1) m rest)

/-- `ins` performs `T(o, B)` as R97 allows: its `SETOFF`, its `CHUNKS` chunks in order, its `FIN`, with
nothing but `NOP`, idle edges, extra `FIN` or dropped `ACC` in between, and no reset. -/
def Performs (v : Variant) (o : Word) (B : Block) (ins : List (Input v)) : Prop :=
  ∃ first middle last, ins = first :: middle ++ [last] ∧
    decodeInput v first = .command (.setoff o) ∧
    presentsChunks v B 0 v.chunks middle = true ∧
    decodeInput v last = .command .fin

/-- The sampled inputs start afresh: a `SETOFF` or a reset step (R78, R121). -/
def restarts (v : Variant) (inp : Input v) : Bool :=
  match decodeInput v inp with
  | .reset => true
  | .command (.setoff _) => true
  | .command .nop => false
  | .command (.acc _) => false
  | .command .fin => false

/-- The elements presented by an `ACC`, accepted or not (R51). -/
def accElements (v : Variant) (inp : Input v) : Option (List Word) :=
  match decodeInput v inp with
  | .command (.acc elems) => some elems
  | .command .nop => none
  | .command (.setoff _) => none
  | .command .fin => none
  | .reset => none

/-- The lanes of `ACC` after `T(o, B)`: lane `j` is the OR over `k < CHUNKS` of
`sub32(B[k*LANES + j], o)` (R97). -/
def blockLane (v : Variant) (o : Word) (B : Block) (j : Nat) : Word :=
  orAll ((List.range v.chunks).map fun k => sub32 (B.toList.getD (k * v.lanes + j) 0) o)

end Sys2Proof.Machine
end

