-- ==== Sys2Proof/Machine/Assembler.lean ====
section
/-! DEFINITION. The assembly language of R57 and its pseudo-instruction of R58, as abstract lines and
the inputs they stand for. R60 makes the textual form a convenience that needs no parser and no printer,
so none is here. -/

namespace Sys2Proof.Machine

/-- One line of assembly (R57, R58). A run `(e, n)` stands for `n` consecutive lanes of value `e`; a
plain operand is a run of length 1. -/
inductive Line where
  | nop
  | setoff (off : Nat)
  | acc (runs : List (Nat × Nat))
  | fin
  /-- Listing directive: `n` edges with `cmd_valid = 0`. -/
  | idle (n : Nat)
  /-- Listing directive: one edge with `rst = 1`. -/
  | reset
  /-- The call `maxbits_FOR(offset, block)`. -/
  | maxbits (off : Nat) (runs : List (Nat × Nat))
deriving DecidableEq, Repr

/-- A number of the syntax: `0` to `2^32 - 1` (R57). Every number of a line is one: an offset, an element,
a run length, the count of `idle`. -/
def assembleNumber (n : Nat) : Option Word := if n < 2 ^ 32 then some (BitVec.ofNat 32 n) else none

/-- The lanes that run-length operands stand for (R57). -/
def expandRuns : List (Nat × Nat) → Option (List Word)
  | [] => some []
  | (e, n) :: rest =>
    match assembleNumber e, assembleNumber n, expandRuns rest with
    | some w, some _, some ws => some (List.replicate n w ++ ws)
    | _, _, _ => none

/-- An operand list of exactly `n` elements (R57). -/
def expandExactly (n : Nat) (runs : List (Nat × Nat)) : Option (List Word) :=
  match expandRuns runs with
  | some ws => if ws.length = n then some ws else none
  | none => none

/-- The commands of `maxbits <off>, <B0>, ..., <B127>` (R58); `none` unless there are 128 elements. -/
def expandMaxbits (v : Variant) (o : Word) (ws : List Word) : Option (List Instr) :=
  if h : ws.length = Config.blockLength then some (transaction v o ⟨ws.toArray, by simp [h]⟩) else none

/-- The inputs a reset line stands for: one edge with `rst = 1` (R57). -/
def resetInput (v : Variant) : Input v := ⟨true, false, 0, 0⟩

/-- The inputs that a line stands for, one per edge; `none` where the line breaks a rule of the syntax
(a number out of range, a wrong count of operands). -/
def assembleLine (v : Variant) : Line → Option (List (Input v))
  | .nop => some [present v .nop]
  | .setoff off => (assembleNumber off).map fun w => [present v (.setoff w)]
  | .acc runs => (expandExactly v.lanes runs).map fun ws => [present v (.acc ws)]
  | .fin => some [present v .fin]
  | .idle n => (assembleNumber n).map fun _ => List.replicate n (Input.idle v)
  | .reset => some [resetInput v]
  | .maxbits off runs =>
    match assembleNumber off, expandRuns runs with
    | some o, some ws => (expandMaxbits v o ws).map fun is => is.map (present v)
    | _, _ => none

/-- The inputs of consecutive lines, presented on consecutive edges (R57). -/
def assemble (v : Variant) : List Line → Option (List (Input v))
  | [] => some []
  | l :: ls =>
    match assembleLine v l, assemble v ls with
    | some a, some b => some (a ++ b)
    | _, _ => none

end Sys2Proof.Machine
end

