-- ==== Sys2Proof/Machine/Collaborators.lean ====
section
/-! DEFINITION. The collaborators of the unit at their interface (R106): what the caller does with a
returned bit width. `PACK` and `UNPACK` are outside the spec (R4) and stay black boxes: only the type of
their bitstream, its size and the condition under which a block survives it stand here. -/

namespace Sys2Proof.Machine

/-- The size in bits of a block packed at bit width `n`: exactly `n × 128` (R106). -/
def packedBits (n : Nat) : Nat := n * Config.blockLength

/-- The size in bytes of a block packed at bit width `n` (R106). -/
def packedBytes (n : Nat) : Nat := 16 * n

/-- A black box `PACK(offset, bitWidth, block)` (R106): a bitstream of exactly `bitWidth × 128` bits. -/
abbrev PackKernel : Type := Word → (n : Nat) → Block → BitVec (packedBits n)

/-- A black box `UNPACK(offset, bitWidth, packedBytes)` (R106). -/
abbrev UnpackKernel : Type := Word → (n : Nat) → BitVec (packedBits n) → Block

/-- An in-domain pair: `offset ≤` every element (R62, R103). -/
def InDomain (o : Word) (B : Block) : Prop := ∀ b ∈ B.toList, o.toNat ≤ b.toNat

/-- Every difference `B[i] - o` of an in-domain block fits in `n` bits: the condition for a `PACK` at bit
width `n` to be lossless (R106). -/
def FitsWidth (n : Nat) (o : Word) (B : Block) : Prop := ∀ b ∈ B.toList, b.toNat - o.toNat < 2 ^ n

/-- The pair of kernels does what the source asks of it: `UNPACK` inverts `PACK` exactly wherever the bit
width suffices (R106). -/
def Inverts (pack : PackKernel) (unpack : UnpackKernel) : Prop :=
  ∀ (o : Word) (n : Nat) (B : Block), InDomain o B → FitsWidth n o B → unpack o n (pack o n B) = B

end Sys2Proof.Machine
end

