-- ==== Sys2Proof/Machine/MaxVariant.lean ====
section
/-! DEFINITION. The permitted implementation of R9 and R73: a unit whose lanes hold the running unsigned
MAXIMUM of the differences and whose reduction is the unsigned maximum. It differs from the
architectural unit of Ops.lean in `ACC` and `FIN` only, and the claim about it is that no port can tell
the two apart. -/

namespace Sys2Proof.Machine

/-- `ACC` with a running maximum in each lane (R73). -/
def accumulateMax {v : Variant} (e : Vector Word v.lanes) (r : Regs v) : Regs v :=
  if accepts r then
    { r with
      acc := lanewise (fun a x => max32 a (sub32 x r.off)) r.acc e
      cnt := r.cnt + 1
      rv := false }
  else r

/-- `FIN` with a maximum reduction (R73). -/
def finishMax {v : Variant} (r : Regs v) : Regs v :=
  { r with res := BitVec.ofNat 6 (bw32 (horMax r.acc)), rv := true }

/-- The effect of a command on the registers of the maximum implementation. -/
def runCommandMax (v : Variant) (i : Instr) (r : Regs v) : Regs v :=
  match i with
  | .nop => r
  | .setoff off => startBlock off r
  | .acc elems => accumulateMax (laneOperand v elems) r
  | .fin => finishMax r

/-- One rising edge of the maximum implementation. -/
def unitStepMax (v : Variant) (r : Regs v) (inp : Input v) : Regs v :=
  match decodeInput v inp with
  | .reset => Regs.reset v
  | .command i => runCommandMax v i r

/-- A sequence of edges of the maximum implementation. -/
def unitRunMax (v : Variant) (r : Regs v) (ins : List (Input v)) : Regs v :=
  ins.foldl (unitStepMax v) r

end Sys2Proof.Machine
end

