-- ==== Sys2Proof/Safety.lean ====
section
/-! DEFINITION. The terms claims use: the invariant of the registers (R26), the relation of the
maximum implementation to the unit (R73), and what it means for a step to complete (R95). -/

namespace Sys2Proof

open Sys2Proof.Machine

/-- The invariant of R26: `0 ≤ CNT ≤ CHUNKS`; `0 ≤ RES ≤ 32`; if `RV = 1` then `RES = bw32(hor(ACC))`. -/
structure RegsInv {v : Variant} (r : Regs v) : Prop where
  /-- `CNT` never passes `CHUNKS` (R18, R26). -/
  cnt_le : r.cnt.toNat ≤ v.chunks
  /-- The encodings 33 to 63 of `RES` never occur (R16, R26). -/
  res_le : r.res.toNat ≤ 32
  /-- `RV = 1` means that `RES` is current (R19, R26). -/
  current : r.rv = true → ResultCurrent r

/-- The invariant of the machine: that of its registers. -/
def Inv (s : State) : Prop := RegsInv s.regs

/-- The relation between the registers of the maximum implementation and those of the unit (R73): `OFF`,
`CNT`, `RES` and `RV` agree, and in each lane the maximum is as wide as the OR. -/
structure SameWidths {v : Variant} (m r : Regs v) : Prop where
  /-- `OFF` agrees. -/
  off_eq : m.off = r.off
  /-- `CNT` agrees. -/
  cnt_eq : m.cnt = r.cnt
  /-- `RES` agrees. -/
  res_eq : m.res = r.res
  /-- `RV` agrees. -/
  rv_eq : m.rv = r.rv
  /-- Lane contents may differ, their bit widths do not (R73). -/
  width_eq : ∀ (j : Nat) (h : j < v.lanes), bw32 m.acc[j] = bw32 r.acc[j]

/-- An outcome that is a next state: neither a fault nor a refusal. -/
def Completes (out : Host.Outcome State Fault Refusal) : Prop := ∃ t, out = .next t

end Sys2Proof
end

