-- ==== Sys2Proof/Certificates/Slice0/Obligations.lean ====
section
/-! DEFINITION. What is claimed of the machine. Each statement cites the rule of spec/ it formalises.
`unitStep v` and `unitRun v` are the step function of R95 for any admitted `LANES`;
`MachineStepIsTheStepFunction` ties them to `step`, this hardware. An input is written
`⟨rst, cmd_valid, cmd_op, cmd_data⟩`. -/

open Sys2Proof Sys2Proof.Machine

/-! ## Parameters, decoding and encoding -/

/-- R8: `CHUNKS`, `DW` and `CW` of each admitted `LANES`, as the rule's formulas and its table give
them. -/
def Obligations.DerivedParametersMatchTable : Prop :=
  (∀ v : Variant, v.chunks = 128 / v.lanes ∧ v.dw = 32 * v.lanes ∧ v.cw = Nat.log2 v.chunks + 1) ∧
  ([Variant.l1, .l2, .l4, .l8, .l16, .l32, .l64, .l128].map fun v => (v.lanes, v.chunks, v.dw, v.cw)) =
    [(1, 128, 32, 8), (2, 64, 64, 7), (4, 32, 128, 6), (8, 16, 256, 5), (16, 8, 512, 4),
      (32, 4, 1024, 3), (64, 2, 2048, 2), (128, 1, 4096, 1)]

/-- Command words written out from R48 and R49 decode to the commands they stand for: `NOP`, `SETOFF 100`,
`SETOFF 7` with bits set in an ignored lane, the `ACC` of vector V-A1 for `LANES = 4`, `FIN`, and `FIN`
with ignored bits set. -/
def Obligations.WrittenWordsDecode : Prop :=
  decodeTableWord 2 0b00 = some .nop ∧
  decodeTableWord 34 0x191 = some (.setoff 100) ∧
  decodeTableWord 66 0x37AB6FBBC0000001D = some (.setoff 7) ∧
  decodeWord .l4 (BitVec.ofNat _ 0x428000000380000002C0000002A) = .acc [10, 11, 14, 266] ∧
  decodeTableWord 2 0b11 = some .fin ∧
  decodeTableWord 8 0xFF = some .fin

/-- R56: decoding as a total function from the sampled inputs to a step kind. -/
def Obligations.DecodeSelectsStepKind : Prop :=
  ∀ (v : Variant) (d : BitVec v.dw),
    (∀ valid op, decodeInput v ⟨true, valid, op, d⟩ = .reset) ∧
    (∀ op, decodeInput v ⟨false, false, op, d⟩ = .command .nop) ∧
    decodeInput v ⟨false, true, 0b00#2, d⟩ = .command .nop ∧
    decodeInput v ⟨false, true, 0b01#2, d⟩ = .command (.setoff (d.extractLsb' 0 32)) ∧
    (∃ es : List Word, decodeInput v ⟨false, true, 0b10#2, d⟩ = .command (.acc es) ∧
      es.length = v.lanes ∧ ∀ j < v.lanes, es[j]? = some (d.extractLsb' (32 * j) 32)) ∧
    decodeInput v ⟨false, true, 0b11#2, d⟩ = .command .fin

/-- Decoding the encoding of a well-formed command gives the command back, for every admitted `LANES`,
every command and every operand; as a command word and as presented at the ports (R47 to R51). -/
def Obligations.DecodeInvertsEncode : Prop :=
  ∀ (v : Variant) (i : Instr), WellFormed v i →
    decodeWord v (encode v i) = i ∧ decodeInput v (present v i) = .command i

/-- Every command word decodes to a well-formed command, and encoding that command gives the word back
but for the bits the command does not read, which the encoder drives to 0 (R47, R48, R50, R52, R54,
R57). -/
def Obligations.EncodeKeepsExactlyTheReadBits : Prop :=
  ∀ (v : Variant) (w : BitVec v.commandBits),
    WellFormed v (decodeWord v w) ∧
    ∀ k, (encode v (decodeWord v w)).getLsbD k =
      (w.getLsbD k && (decide (k < 2) ||
        (decide (w.extractLsb' 0 2 = 0b01#2) && decide (k < 34)) ||
        decide (w.extractLsb' 0 2 = 0b10#2)))

/-- R50, R52, R53: the effect of a command is the same whatever is driven on the bits it does not
read. -/
def Obligations.IgnoredBitsHaveNoEffect : Prop :=
  ∀ (v : Variant) (r : Regs v) (d d' : BitVec v.dw),
    (d.extractLsb' 0 32 = d'.extractLsb' 0 32 →
      unitStep v r ⟨false, true, 0b01#2, d⟩ = unitStep v r ⟨false, true, 0b01#2, d'⟩ ∧
      (unitStep v r ⟨false, true, 0b01#2, d⟩).off = d.extractLsb' 0 32) ∧
    unitStep v r ⟨false, true, 0b00#2, d⟩ = unitStep v r ⟨false, true, 0b00#2, d'⟩ ∧
    unitStep v r ⟨false, true, 0b11#2, d⟩ = unitStep v r ⟨false, true, 0b11#2, d'⟩ ∧
    (∀ op, unitStep v r ⟨false, false, op, d⟩ = r) ∧
    (∀ valid valid' op op',
      unitStep v r ⟨true, valid, op, d⟩ = unitStep v r ⟨true, valid', op', d'⟩)

/-- R36: `cmd_data` formed from the `4*LANES` bytes of a chunk at increasing addresses is
little-endian, byte by byte and lane by lane. -/
def Obligations.ChunkBytesAreLittleEndian : Prop :=
  ∀ (v : Variant) (m : List Byte), m.length = 4 * v.lanes →
    (∀ t < 4 * v.lanes, (dataOfBytes v m).extractLsb' (8 * t) 8 = m.getD t 0) ∧
    (∀ j < v.lanes, (lane v (dataOfBytes v m) j).toNat =
      (m.getD (4 * j) 0).toNat + 2 ^ 8 * (m.getD (4 * j + 1) 0).toNat +
        2 ^ 16 * (m.getD (4 * j + 2) 0).toNat + 2 ^ 24 * (m.getD (4 * j + 3) 0).toNat)

/-! ## The datapath functions -/

/-- R61, and R62 (a), (b), (d): subtraction modulo `2^32`, the ordinary difference in domain and the
wrapped one out of it. -/
def Obligations.SubtractionWrapsModulo : Prop :=
  ∀ a b : Word,
    ((sub32 a b).toNat : Int) = ((a.toNat : Int) - b.toNat) % 2 ^ 32 ∧
    (b.toNat ≤ a.toNat → (sub32 a b).toNat = a.toNat - b.toNat) ∧
    (a.toNat < b.toNat → (sub32 a b).toNat + b.toNat = a.toNat + 2 ^ 32 ∧ 1 ≤ (sub32 a b).toNat) ∧
    sub32 a a = 0 ∧ sub32 a 0 = a ∧ (sub32 a b = 0 → a = b)

/-- R63, R64: OR bit by bit, its laws, its numeric bounds, and that the OR of a finite collection does
not depend on order, grouping or repetition. -/
def Obligations.OrLawsAndOrderFreedom : Prop :=
  (∀ a b : Word,
    (∀ t < 32, (or32 a b).getLsbD t = (a.getLsbD t || b.getLsbD t)) ∧
    or32 a b = or32 b a ∧ (∀ c, or32 (or32 a b) c = or32 a (or32 b c)) ∧
    or32 a a = a ∧ or32 a 0 = a ∧ (or32 a b = 0 → a = 0 ∧ b = 0) ∧
    max a.toNat b.toNat ≤ (or32 a b).toNat ∧ (or32 a b).toNat ≤ a.toNat + b.toNat) ∧
  orAll [] = 0 ∧ (∀ x : Word, orAll [x] = x) ∧
  (∀ xs ys : List Word, orAll (xs ++ ys) = or32 (orAll xs) (orAll ys)) ∧
  (∀ xs ys : List Word, (∀ x, x ∈ xs ↔ x ∈ ys) → orAll xs = orAll ys)

/-- R65, R66: the leading-zero count and the bit width, at zero and by the highest 1 bit. -/
def Obligations.LeadingZerosAndHighestBit : Prop :=
  clz32 0 = 32 ∧ bw32 0 = 0 ∧
  ∀ x : Word, clz32 x ≤ 32 ∧ bw32 x = 32 - clz32 x ∧
    (x ≠ 0 → ∃ p < 32, x.getLsbD p = true ∧ (∀ i, p < i → i < 32 → x.getLsbD i = false) ∧
      clz32 x = 31 - p ∧ bw32 x = p + 1)

/-- R67 (a) to (f): the six characterisations of the bit width. -/
def Obligations.BitWidthCharacterisations : Prop :=
  ∀ x : Word,
    bw32 x ≤ 32 ∧
    (bw32 x = 0 ↔ x = 0) ∧
    (x ≠ 0 → bw32 x = Nat.log 2 x.toNat + 1) ∧
    bw32 x = Nat.clog 2 (x.toNat + 1) ∧
    (x.toNat < 2 ^ bw32 x ∧ ∀ b, x.toNat < 2 ^ b → bw32 x ≤ b) ∧
    (∀ b, 1 ≤ b → b ≤ 32 → (bw32 x = b ↔ 2 ^ (b - 1) ≤ x.toNat ∧ x.toNat ≤ 2 ^ b - 1))

/-- R68: the bit width is monotone. -/
def Obligations.BitWidthIsMonotone : Prop :=
  ∀ x y : Word, x.toNat ≤ y.toNat → bw32 x ≤ bw32 y

/-- R70: the balanced reduction tree computes the horizontal OR, for every number of levels and so for
every admitted `LANES`. -/
def Obligations.ReductionTreeComputesHorizontalOr : Prop :=
  (∀ (k : Nat) (t : Vector Word (2 ^ k)), horTree k t = hor t) ∧
  (∀ (v : Variant) (t : Vector Word v.lanes), horTree v.levels t = hor t)

/-- R71, R72: for two values and for a finite multiset, the width of the OR is the greatest width and is
the width of the maximum; all are 0 for the empty multiset. -/
def Obligations.OrAndMaximumHaveTheSameWidth : Prop :=
  (∀ a b : Word,
    bw32 (or32 a b) = max (bw32 a) (bw32 b) ∧ max (bw32 a) (bw32 b) = bw32 (max32 a b) ∧
    (max32 a b).toNat = max a.toNat b.toNat) ∧
  (∀ xs : List Word,
    bw32 (orAll xs) = (xs.map bw32).foldr max 0 ∧ bw32 (orAll xs) = bw32 (maxAll xs))

/-- R73: a unit that keeps the running unsigned maximum in each lane and reduces by maximum is simulated
by the unit. Every edge with the same inputs keeps the relation `SameWidths`, which holds right after
reset, makes the two reductions equally wide and makes all output ports equal; hence no sequence of
inputs from reset shows a difference, for any admitted `LANES`. -/
def Obligations.MaximumImplementationIsIndistinguishable : Prop :=
  (∀ (v : Variant) (m r : Regs v) (inp : Input v), SameWidths m r →
    SameWidths (unitStepMax v m inp) (unitStep v r inp)) ∧
  (∀ (v : Variant) (m r : Regs v), SameWidths m r →
    outputs m = outputs r ∧ bw32 (horMax m.acc) = bw32 (hor r.acc)) ∧
  (∀ v : Variant, SameWidths (Regs.reset v) (Regs.reset v)) ∧
  ∀ (v : Variant) (ins : List (Input v)),
    outputs (unitRunMax v (Regs.reset v) ins) = outputs (unitRun v (Regs.reset v) ins)

/-- R75 (a) to (f): what `maxbits_FOR` is, in domain or not. -/
def Obligations.MaxbitsCharacterisations : Prop :=
  ∀ (o : Word) (B : Block),
    (maxbitsFOR o B = (B.toList.map fun b => bw32 (sub32 b o)).foldr max 0 ∧
      maxbitsFOR o B = bw32 (maxAll (B.toList.map fun b => sub32 b o))) ∧
    (maxbitsFOR o B ≤ 32 ∧ (∀ b ∈ B.toList, (sub32 b o).toNat < 2 ^ maxbitsFOR o B) ∧
      ∀ n, (∀ b ∈ B.toList, (sub32 b o).toNat < 2 ^ n) → maxbitsFOR o B ≤ n) ∧
    (maxbitsFOR o B = 0 ↔ ∀ b ∈ B.toList, b = o) ∧
    (∀ B' : Block, B'.toList.Perm B.toList → maxbitsFOR o B' = maxbitsFOR o B) ∧
    (InDomain o B → maxbitsFOR o B =
      Nat.clog 2 ((B.toList.map fun b => b.toNat - o.toNat).foldr max 0 + 1)) ∧
    (InDomain o B → ∀ (i : Nat) (h : i < 128) (x : Word), B[i].toNat ≤ x.toNat →
      maxbitsFOR o B ≤ maxbitsFOR o (B.set i x))

/-- R76: the difference of an out-of-domain element and its bit width. -/
def Obligations.OutOfDomainWidth : Prop :=
  ∀ o b : Word, b.toNat < o.toNat →
    (sub32 b o).toNat = 2 ^ 32 - (o.toNat - b.toNat) ∧
    (bw32 (sub32 b o) = 32 ↔ o.toNat - b.toNat ≤ 2 ^ 31) ∧
    (2 ^ 31 < o.toNat - b.toNat → bw32 (sub32 b o) < 32)

/-! ## The commands -/

/-- R94: `NOP` changes no register and no output, and a cycle with `cmd_valid = 0` has exactly the same
effect, whatever the other ports are. -/
def Obligations.NopIsTheIdentity : Prop :=
  (∀ s : State, exec .nop s = .next s) ∧
  (∀ (v : Variant) (r : Regs v) (d : BitVec v.dw),
    unitStep v r ⟨false, true, 0b00#2, d⟩ = r ∧ ∀ op, unitStep v r ⟨false, false, op, d⟩ = r) ∧
  (∀ (r : Regs Config.variant) (d : BitVec Config.variant.dw) (rest : List (Input Config.variant)),
    step ⟨r, ⟨false, true, 0b00#2, d⟩ :: rest⟩ = .next ⟨r, rest⟩ ∧
    ∀ op, step ⟨r, ⟨false, false, op, d⟩ :: rest⟩ = .next ⟨r, rest⟩)

/-- R77: the whole effect of `SETOFF`, in any state, for any operand and any admitted `LANES`, with the
outputs after it. -/
def Obligations.SetoffStartsBlock : Prop :=
  (∀ (off : Word) (s : State), exec (.setoff off) s =
    .next ⟨⟨off, Vector.replicate Config.variant.lanes 0, 0, s.regs.res, false⟩, s.inputs⟩) ∧
  (∀ (v : Variant) (r : Regs v) (d : BitVec v.dw),
    unitStep v r ⟨false, true, 0b01#2, d⟩ =
      ⟨d.extractLsb' 0 32, Vector.replicate v.lanes 0, 0, r.res, false⟩ ∧
    outputs (unitStep v r ⟨false, true, 0b01#2, d⟩) = ⟨r.res, false, 0, false⟩)

/-- R81: the whole effect of `ACC`, accepted or dropped, in any state, for any elements and any admitted
`LANES`. -/
def Obligations.AccAccumulatesDifferences : Prop :=
  (∀ (elems : List Word) (s : State), WellFormed Config.variant (.acc elems) →
    (s.regs.cnt.toNat < Config.variant.chunks →
      ∃ t, exec (.acc elems) s = .next t ∧ t.inputs = s.inputs ∧ t.regs.off = s.regs.off ∧
        t.regs.res = s.regs.res ∧ t.regs.rv = false ∧ t.regs.cnt.toNat = s.regs.cnt.toNat + 1 ∧
        ∀ (j : Nat) (h : j < Config.variant.lanes),
          t.regs.acc[j] = or32 s.regs.acc[j] (sub32 (elems.getD j 0) s.regs.off)) ∧
    (¬ s.regs.cnt.toNat < Config.variant.chunks → exec (.acc elems) s = .next s)) ∧
  (∀ (v : Variant) (r : Regs v) (d : BitVec v.dw),
    (r.cnt.toNat < v.chunks →
      (unitStep v r ⟨false, true, 0b10#2, d⟩).off = r.off ∧
      (unitStep v r ⟨false, true, 0b10#2, d⟩).res = r.res ∧
      (unitStep v r ⟨false, true, 0b10#2, d⟩).rv = false ∧
      (unitStep v r ⟨false, true, 0b10#2, d⟩).cnt.toNat = r.cnt.toNat + 1 ∧
      (full (unitStep v r ⟨false, true, 0b10#2, d⟩) = true ↔ r.cnt.toNat + 1 = v.chunks) ∧
      ∀ (j : Nat) (h : j < v.lanes),
        (unitStep v r ⟨false, true, 0b10#2, d⟩).acc[j] =
          or32 r.acc[j] (sub32 (d.extractLsb' (32 * j) 32) r.off)) ∧
    (¬ r.cnt.toNat < v.chunks → unitStep v r ⟨false, true, 0b10#2, d⟩ = r))

/-- R83: an `ACC` at `CNT = CHUNKS` changes no register whatever its data, so that until the next
`SETOFF` or reset nothing more is accumulated. -/
def Obligations.FullUnitDropsAcc : Prop :=
  (∀ (elems : List Word) (s : State), full s.regs = true → exec (.acc elems) s = .next s) ∧
  (∀ (v : Variant) (r : Regs v), full r = true →
    (∀ d : BitVec v.dw, unitStep v r ⟨false, true, 0b10#2, d⟩ = r) ∧
    ∀ ins : List (Input v), (∀ inp ∈ ins, restarts v inp = false) →
      (unitRun v r ins).off = r.off ∧ (unitRun v r ins).acc = r.acc ∧ (unitRun v r ins).cnt = r.cnt)

/-- R82: every lane takes part in every accepted `ACC`, and the lanes are independent: lane `j`
afterwards depends only on lane `j` of the data, on `OFF` and on the old lane `j`. -/
def Obligations.LanesAreIndependent : Prop :=
  ∀ (v : Variant) (r r' : Regs v) (d d' : BitVec v.dw) (j : Nat) (h : j < v.lanes),
    r.cnt.toNat < v.chunks → r'.cnt.toNat < v.chunks →
    (unitStep v r ⟨false, true, 0b10#2, d⟩).acc[j] = or32 r.acc[j] (sub32 (lane v d j) r.off) ∧
    (r.off = r'.off → r.acc[j] = r'.acc[j] → lane v d j = lane v d' j →
      (unitStep v r ⟨false, true, 0b10#2, d⟩).acc[j] =
        (unitStep v r' ⟨false, true, 0b10#2, d'⟩).acc[j])

/-- R88, R89: the whole effect of `FIN`, in any state and for any admitted `LANES`: `RES` takes the bit
width of the reduced accumulator, in full, and `RV` is set. -/
def Obligations.FinWritesBitWidth : Prop :=
  (∀ s : State, ∃ res : BitVec 6, res.toNat = bw32 (hor s.regs.acc) ∧
    exec .fin s = .next ⟨⟨s.regs.off, s.regs.acc, s.regs.cnt, res, true⟩, s.inputs⟩) ∧
  (∀ (v : Variant) (r : Regs v) (d : BitVec v.dw), ∃ res : BitVec 6,
    unitStep v r ⟨false, true, 0b11#2, d⟩ = ⟨r.off, r.acc, r.cnt, res, true⟩ ∧
    res.toNat = bw32 (hor r.acc) ∧ res.toNat = 32 - clz32 (hor r.acc) ∧ res.toNat ≤ 32 ∧
    (hor r.acc = 0 → res = 0) ∧ (bw32 (hor r.acc) = 32 → res = 0b100000#6) ∧
    outputs (unitStep v r ⟨false, true, 0b11#2, d⟩) = ⟨res, true, r.cnt, full r⟩ ∧
    (returnedValue (outputs (unitStep v r ⟨false, true, 0b11#2, d⟩))).toNat = bw32 (hor r.acc))

/-- R17: the read and write sets of every step. Written registers by equations, read registers by
comparing two runs that agree on what the rule lets the step read. -/
def Obligations.ReadAndWriteSets : Prop :=
  ∀ (v : Variant) (r r' : Regs v) (d d' : BitVec v.dw),
    (∀ valid op, unitStep v r ⟨true, valid, op, d⟩ = ⟨0, Vector.replicate v.lanes 0, 0, 0, false⟩) ∧
    (unitStep v r ⟨false, true, 0b00#2, d⟩ = r ∧ ∀ op, unitStep v r ⟨false, false, op, d⟩ = r) ∧
    ((unitStep v r ⟨false, true, 0b01#2, d⟩).acc = Vector.replicate v.lanes 0 ∧
      (unitStep v r ⟨false, true, 0b01#2, d⟩).cnt = 0 ∧
      (unitStep v r ⟨false, true, 0b01#2, d⟩).rv = false ∧
      (unitStep v r ⟨false, true, 0b01#2, d⟩).res = r.res ∧
      (d.extractLsb' 0 32 = d'.extractLsb' 0 32 →
        { unitStep v r ⟨false, true, 0b01#2, d⟩ with res := 0 } =
          { unitStep v r' ⟨false, true, 0b01#2, d'⟩ with res := 0 })) ∧
    (r.cnt.toNat < v.chunks →
      (unitStep v r ⟨false, true, 0b10#2, d⟩).off = r.off ∧
      (unitStep v r ⟨false, true, 0b10#2, d⟩).res = r.res ∧
      (unitStep v r ⟨false, true, 0b10#2, d⟩).rv = false ∧
      (r.cnt = r'.cnt →
        (unitStep v r ⟨false, true, 0b10#2, d⟩).cnt = (unitStep v r' ⟨false, true, 0b10#2, d'⟩).cnt ∧
        (r.off = r'.off → r.acc = r'.acc →
          (unitStep v r ⟨false, true, 0b10#2, d⟩).acc = (unitStep v r' ⟨false, true, 0b10#2, d⟩).acc))) ∧
    (r.cnt.toNat = v.chunks → unitStep v r ⟨false, true, 0b10#2, d⟩ = r) ∧
    ((unitStep v r ⟨false, true, 0b11#2, d⟩).off = r.off ∧
      (unitStep v r ⟨false, true, 0b11#2, d⟩).acc = r.acc ∧
      (unitStep v r ⟨false, true, 0b11#2, d⟩).cnt = r.cnt ∧
      (unitStep v r ⟨false, true, 0b11#2, d⟩).rv = true ∧
      (r.acc = r'.acc →
        (unitStep v r ⟨false, true, 0b11#2, d⟩).res = (unitStep v r' ⟨false, true, 0b11#2, d'⟩).res))

/-- Which steps can change each register (R14, R15, R16, R18, R19): no other step writes it. -/
def Obligations.OnlyTheseStepsWriteEachRegister : Prop :=
  ∀ (v : Variant) (r : Regs v) (inp : Input v),
    ((unitStep v r inp).off ≠ r.off →
      decodeInput v inp = .reset ∨ ∃ o, decodeInput v inp = .command (.setoff o)) ∧
    (((unitStep v r inp).acc ≠ r.acc ∨ (unitStep v r inp).cnt ≠ r.cnt) →
      decodeInput v inp = .reset ∨ (∃ o, decodeInput v inp = .command (.setoff o)) ∨
        ∃ es, decodeInput v inp = .command (.acc es) ∧ r.cnt.toNat < v.chunks) ∧
    ((unitStep v r inp).res ≠ r.res →
      decodeInput v inp = .reset ∨ decodeInput v inp = .command .fin) ∧
    (r.rv = false → (unitStep v r inp).rv = true → decodeInput v inp = .command .fin) ∧
    (r.rv = true → (unitStep v r inp).rv = false →
      decodeInput v inp = .reset ∨ (∃ o, decodeInput v inp = .command (.setoff o)) ∨
        ∃ es, decodeInput v inp = .command (.acc es) ∧ r.cnt.toNat < v.chunks)

/-- R87 (a) to (f): the corner cases of `ACC`. -/
def Obligations.AccCornerCases : Prop :=
  (∀ (v : Variant) (r : Regs v) (d : BitVec v.dw), r.cnt.toNat < v.chunks →
    (∀ j < v.lanes, lane v d j = r.off) →
      (unitStep v r ⟨false, true, 0b10#2, d⟩).acc = r.acc ∧
      (unitStep v r ⟨false, true, 0b10#2, d⟩).cnt.toNat = r.cnt.toNat + 1 ∧
      (unitStep v r ⟨false, true, 0b10#2, d⟩).rv = false) ∧
  (sub32 0xFFFFFFFF#32 0#32 = 0xFFFFFFFF#32 ∧ (∀ x : Word, or32 x 0xFFFFFFFF#32 = 0xFFFFFFFF#32) ∧
    ∀ (v : Variant) (r : Regs v) (j : Nat) (h : j < v.lanes) (ins : List (Input v)),
      r.acc[j] = 0xFFFFFFFF#32 → (∀ inp ∈ ins, restarts v inp = false) →
        (unitRun v r ins).acc[j] = 0xFFFFFFFF#32) ∧
  sub32 0#32 1#32 = 0xFFFFFFFF#32 ∧
  (∀ (v : Variant) (r : Regs v) (j : Nat) (h : j < v.lanes) (ins : List (Input v)),
    (∀ inp ∈ ins, restarts v inp = false) →
      (∀ t, r.acc[j].getLsbD t = true → (unitRun v r ins).acc[j].getLsbD t = true) ∧
      r.acc[j].toNat ≤ (unitRun v r ins).acc[j].toNat) ∧
  (∀ (v : Variant) (r : Regs v) (d : BitVec v.dw), r.cnt.toNat + 1 < v.chunks →
    (unitRun v r [⟨false, true, 0b10#2, d⟩, ⟨false, true, 0b10#2, d⟩]).acc =
      (unitStep v r ⟨false, true, 0b10#2, d⟩).acc ∧
    (unitRun v r [⟨false, true, 0b10#2, d⟩, ⟨false, true, 0b10#2, d⟩]).cnt.toNat = r.cnt.toNat + 2) ∧
  (∀ (r : Regs .l128) (d₀ d : BitVec (Variant.dw .l128)) (ins : List (Input .l128)),
    (∀ inp ∈ ins, restarts .l128 inp = false) →
      accepts (unitStep .l128 r ⟨false, true, 0b01#2, d₀⟩) = true ∧
      full (unitRun .l128 r [⟨false, true, 0b01#2, d₀⟩, ⟨false, true, 0b10#2, d⟩]) = true ∧
      ∀ d' : BitVec (Variant.dw .l128),
        unitStep .l128 (unitRun .l128 r
          ([⟨false, true, 0b01#2, d₀⟩, ⟨false, true, 0b10#2, d⟩] ++ ins)) ⟨false, true, 0b10#2, d'⟩ =
        unitRun .l128 r ([⟨false, true, 0b01#2, d₀⟩, ⟨false, true, 0b10#2, d⟩] ++ ins))

/-- R85: `ACC` without a preceding `SETOFF`. After reset it acts as after `SETOFF 0`, and after a `FIN` it
goes on accumulating as if the `FIN` had not been, so that a later `FIN` covers everything. -/
def Obligations.AccWithoutSetoff : Prop :=
  (∀ (v : Variant) (r : Regs v), r.res = 0 →
    unitStep v r (present v (.setoff 0)) = Regs.reset v) ∧
  (∀ (v : Variant) (d : BitVec v.dw) (j : Nat) (h : j < v.lanes),
    (unitStep v (Regs.reset v) ⟨false, true, 0b10#2, d⟩).acc[j] = lane v d j) ∧
  (∀ (v : Variant) (r : Regs v) (d : BitVec v.dw) (f f' : BitVec v.dw), r.cnt.toNat < v.chunks →
    (unitRun v r [⟨false, true, 0b11#2, f⟩, ⟨false, true, 0b10#2, d⟩]).rv = false ∧
    (unitRun v r [⟨false, true, 0b11#2, f⟩, ⟨false, true, 0b10#2, d⟩]).acc =
      (unitStep v r ⟨false, true, 0b10#2, d⟩).acc ∧
    unitRun v r [⟨false, true, 0b11#2, f⟩, ⟨false, true, 0b10#2, d⟩, ⟨false, true, 0b11#2, f'⟩] =
      unitRun v r [⟨false, true, 0b10#2, d⟩, ⟨false, true, 0b11#2, f'⟩])

/-- R91: `FIN` does not disturb the accumulation, a second `FIN` changes nothing, and the results of two
`FIN` with no `SETOFF` and no reset between them never decrease. -/
def Obligations.RunningWidthNeverDecreases : Prop :=
  ∀ (v : Variant) (r : Regs v) (d d' : BitVec v.dw),
    (unitStep v r ⟨false, true, 0b11#2, d⟩).off = r.off ∧
    (unitStep v r ⟨false, true, 0b11#2, d⟩).acc = r.acc ∧
    (unitStep v r ⟨false, true, 0b11#2, d⟩).cnt = r.cnt ∧
    unitRun v r [⟨false, true, 0b11#2, d⟩, ⟨false, true, 0b11#2, d'⟩] =
      unitStep v r ⟨false, true, 0b11#2, d⟩ ∧
    ∀ ins : List (Input v), (∀ inp ∈ ins, restarts v inp = false) →
      (unitStep v r ⟨false, true, 0b11#2, d⟩).res.toNat ≤
        (unitRun v r (⟨false, true, 0b11#2, d⟩ :: ins ++ [⟨false, true, 0b11#2, d'⟩])).res.toNat

/-! ## Reset and the step function -/

/-- R121: a reset step gives every register its reset value whatever was there and whatever command is
presented at the same edge. -/
def Obligations.ResetWinsOverCommands : Prop :=
  (∀ (v : Variant) (r : Regs v) (valid : Bool) (op : BitVec 2) (d : BitVec v.dw),
    unitStep v r ⟨true, valid, op, d⟩ = ⟨0, Vector.replicate v.lanes 0, 0, 0, false⟩) ∧
  (∀ (r : Regs Config.variant) (valid : Bool) (op : BitVec 2) (d : BitVec Config.variant.dw)
      (rest : List (Input Config.variant)),
    step ⟨r, ⟨true, valid, op, d⟩ :: rest⟩ =
      .next ⟨⟨0, Vector.replicate Config.variant.lanes 0, 0, 0, false⟩, rest⟩)

/-- R27: what a reset step leaves in the registers and on the outputs; `State.reset` is that state. -/
def Obligations.ResetLeavesZero : Prop :=
  State.reset.regs = ⟨0, Vector.replicate Config.variant.lanes 0, 0, 0, false⟩ ∧
  outputs State.reset.regs = ⟨0, false, 0, false⟩ ∧
  ∀ (v : Variant) (r : Regs v) (inp : Input v), inp.rst = true →
    unitStep v r inp = ⟨0, Vector.replicate v.lanes 0, 0, 0, false⟩ ∧
    outputs (unitStep v r inp) = ⟨0, false, 0, false⟩

/-- One step runs the command that the next sampled inputs decode to, and takes those inputs off the
schedule; a reset step takes them off too. Where nothing is scheduled the step changes nothing: that last
clause is the model's choice (assumption log, entry 2). -/
def Obligations.StepRunsTheDecodedCommand : Prop :=
  ∀ (r : Regs Config.variant) (inp : Input Config.variant) (rest : List (Input Config.variant)),
    (∀ i, decodeInput Config.variant inp = .command i →
      step ⟨r, inp :: rest⟩ = exec i ⟨r, rest⟩) ∧
    (decodeInput Config.variant inp = .reset →
      step ⟨r, inp :: rest⟩ = .next ⟨Regs.reset Config.variant, rest⟩) ∧
    step ⟨r, []⟩ = .next ⟨r, []⟩

/-- A table word placed by `withFetchWord` is the command the very next step runs, with the registers and
the later inputs as they were (the model's placing: assumption log, entry 3). -/
def Obligations.PlacedWordRunsNext : Prop :=
  ∀ (s : State) (nbits w : Nat), ∃ i, decodeTableWord nbits w = some i ∧
    step (s.withFetchWord nbits w) = exec i ⟨s.regs, s.inputs.tail⟩

/-- R95: the machine's step is the total, deterministic step function of the rule, for this hardware:
on every state and every input it gives a next state, whose registers are those the rule gives. -/
def Obligations.MachineStepIsTheStepFunction : Prop :=
  (∀ (r : Regs Config.variant) (inp : Input Config.variant) (rest : List (Input Config.variant)),
    step ⟨r, inp :: rest⟩ = .next ⟨unitStep Config.variant r inp, rest⟩) ∧
  (∀ (v : Variant) (r : Regs v) (inp : Input v),
    (decodeInput v inp = .reset → unitStep v r inp = Regs.reset v) ∧
    (decodeInput v inp = .command .nop → unitStep v r inp = r) ∧
    (∀ o, decodeInput v inp = .command (.setoff o) → unitStep v r inp = startBlock o r) ∧
    (∀ es, decodeInput v inp = .command (.acc es) →
      (r.cnt.toNat < v.chunks →
        unitStep v r inp = { r with
          acc := Vector.ofFn fun j : Fin v.lanes => or32 r.acc[j.val] (sub32 (es.getD j.val 0) r.off)
          cnt := r.cnt + 1
          rv := false }) ∧
      (¬ r.cnt.toNat < v.chunks → unitStep v r inp = r)) ∧
    (decodeInput v inp = .command .fin → unitStep v r inp = finish r)) ∧
  (∀ s : State, Completes (step s)) ∧ (∀ (i : Instr) (s : State), Completes (exec i s))

/-- R42: after `n` edges the state is the fold of the step function over the `n` sampled input tuples in
order, and no step on the way stops. -/
def Obligations.RunIsTheFoldOfTheStepFunction : Prop :=
  ∀ (n : Nat) (s : State), n ≤ s.inputs.length →
    (Sys2Proof.core.run n s : Host.Outcome State Fault Refusal) =
      .next ⟨unitRun Config.variant s.regs (s.inputs.take n), s.inputs.drop n⟩

/-- R24, R20: the output ports are these functions of the registers; in particular `OFF` and `ACC` are
visible at no port, and reading a port is no step. -/
def Obligations.OutputsAreFunctionsOfTheState : Prop :=
  ∀ (v : Variant) (r : Regs v),
    (outputs r).res = r.res ∧ (outputs r).resValid = r.rv ∧ (outputs r).cnt = r.cnt ∧
    ((outputs r).full = true ↔ r.cnt.toNat = v.chunks) ∧
    ∀ (o : Word) (a : Vector Word v.lanes), outputs { r with off := o, acc := a } = outputs r

/-! ## Invariants -/

/-- R26: every step keeps the invariant of the registers, for every admitted `LANES` and on the machine;
hence it holds after any reset and any sequence of steps. -/
def Obligations.EveryStepKeepsTheInvariant : Prop :=
  (∀ (v : Variant) (r : Regs v) (inp : Input v), RegsInv r → RegsInv (unitStep v r inp)) ∧
  (∀ s t : State, Inv s → step s = .next t → Inv t) ∧
  (∀ (v : Variant) (r : Regs v) (rst : Input v) (ins : List (Input v)), rst.rst = true →
    RegsInv (unitRun v r (rst :: ins)))

/-- The invariant holds right after reset, with its bounds not only assumed: `CNT` and `RES` are 0 and
`RV` is clear (R26, R27). -/
def Obligations.ResetSatisfiesTheInvariant : Prop :=
  Inv State.reset ∧ ∀ v : Variant, RegsInv (Regs.reset v)

/-- R86: what the accumulator holds after a `SETOFF` and any inputs without another `SETOFF` or a reset:
the OR of the wrapped differences of the first `CHUNKS` `ACC` presented, lane by lane and in all. -/
def Obligations.AccumulatorHoldsOrOfDifferences : Prop :=
  ∀ (v : Variant) (r : Regs v) (off : Word) (ins : List (Input v)),
    (∀ inp ∈ ins, restarts v inp = false) →
      (unitRun v r (present v (.setoff off) :: ins)).off = off ∧
      (unitRun v r (present v (.setoff off) :: ins)).cnt.toNat =
        min (ins.filterMap (accElements v)).length v.chunks ∧
      (∀ (j : Nat) (h : j < v.lanes),
        (unitRun v r (present v (.setoff off) :: ins)).acc[j] =
          orAll (((ins.filterMap (accElements v)).take v.chunks).map fun es =>
            sub32 (es.getD j 0) off)) ∧
      hor (unitRun v r (present v (.setoff off) :: ins)).acc =
        orAll (((ins.filterMap (accElements v)).take v.chunks).flatten.map fun e => sub32 e off)

/-- R90: `FIN` does not look at `CNT`: after a `SETOFF` and any number of `ACC` it gives the bit width of
the differences of what was accepted, sets `RV` and stops nothing. -/
def Obligations.EarlyFinishCoversWhatWasAccepted : Prop :=
  ∀ (v : Variant) (r : Regs v) (off : Word) (ins : List (Input v)) (d : BitVec v.dw),
    (∀ inp ∈ ins, restarts v inp = false) →
      (unitRun v r (present v (.setoff off) :: ins ++ [⟨false, true, 0b11#2, d⟩])).rv = true ∧
      (∀ es ∈ (ins.filterMap (accElements v)).take v.chunks, ∀ e ∈ es, (sub32 e off).toNat <
        2 ^ (unitRun v r (present v (.setoff off) :: ins ++ [⟨false, true, 0b11#2, d⟩])).res.toNat) ∧
      ∀ n, (∀ es ∈ (ins.filterMap (accElements v)).take v.chunks, ∀ e ∈ es,
          (sub32 e off).toNat < 2 ^ n) →
        (unitRun v r (present v (.setoff off) :: ins ++ [⟨false, true, 0b11#2, d⟩])).res.toNat ≤ n

/-- `FIN` over an empty accumulation, straight after reset or straight after a `SETOFF`, gives 0 with
`RV` set (R93 (a) and (f)). -/
def Obligations.EmptyAccumulationHasWidthZero : Prop :=
  ∀ (v : Variant) (r : Regs v) (off : Word),
    (unitRun v r [present v (.setoff off), present v .fin]).res = 0 ∧
    (unitRun v r [present v (.setoff off), present v .fin]).rv = true ∧
    (unitStep v (Regs.reset v) (present v .fin)).res = 0 ∧
    (unitStep v (Regs.reset v) (present v .fin)).rv = true

/-! ## The transaction -/

/-- The transaction `T(o, B)` presents every element of the block once and in order, `LANES` to a chunk,
in exactly `CHUNKS + 2` commands, and any input sequence that performs it has at least that many edges
(R35, R58, R99). -/
def Obligations.TransactionPresentsTheBlock : Prop :=
  ∀ (v : Variant) (o : Word) (B : Block),
    Performs v o B ((transaction v o B).map (present v)) ∧
    (transaction v o B).length = v.chunks + 2 ∧
    (∀ k < v.chunks, (chunk v B k).length = v.lanes ∧
      ∀ j < v.lanes, (chunk v B k)[j]? = B.toList[k * v.lanes + j]?) ∧
    (List.range v.chunks).flatMap (chunk v B) = B.toList ∧
    ∀ ins, Performs v o B ins → v.chunks + 2 ≤ ins.length

/-- R97: from any state, a transaction performed with `NOP`, idle edges, extra `FIN` or dropped `ACC` in
between ends in the state the rule gives, with `RES = maxbits_FOR(o, B)`; for every admitted `LANES`. -/
def Obligations.TransactionComputesMaxbits : Prop :=
  ∀ (v : Variant) (o : Word) (B : Block) (r : Regs v) (ins : List (Input v)), Performs v o B ins →
    (unitRun v r ins).off = o ∧
    (∀ (j : Nat) (h : j < v.lanes), (unitRun v r ins).acc[j] = blockLane v o B j) ∧
    (unitRun v r ins).cnt.toNat = v.chunks ∧
    (unitRun v r ins).res.toNat = maxbitsFOR o B ∧
    (unitRun v r ins).rv = true ∧
    (outputs (unitRun v r ins)).full = true

/-- R136: on the machine itself, from every state whose schedule begins with inputs that perform
`T(o, B)`, the state after the `FIN` edge has `RV = 1` and `RES = maxbits_FOR(o, B)`, and no step on the
way stops. -/
def Obligations.MachinePerformsTransactions : Prop :=
  ∀ (o : Word) (B : Block) (r : Regs Config.variant) (ins rest : List (Input Config.variant)),
    Performs Config.variant o B ins →
      ∃ t : State, (Sys2Proof.core.run ins.length (⟨r, ins ++ rest⟩ : State) :
          Host.Outcome State Fault Refusal) = .next t ∧
        t.inputs = rest ∧ t.regs.rv = true ∧ t.regs.res.toNat = maxbitsFOR o B

/-- R102: a transaction gives the same `RES = maxbits_FOR(o, B)` for every admitted `LANES`, from any states, whatever fillers
are inserted; and so does the maximum implementation. -/
def Obligations.VariantsAgree : Prop :=
  ∀ (o : Word) (B : Block) (v w : Variant) (r : Regs v) (q : Regs w)
    (ins : List (Input v)) (jns : List (Input w)), Performs v o B ins → Performs w o B jns →
      (unitRun v r ins).res.toNat = maxbitsFOR o B ∧ (unitRun v r ins).rv = true ∧
      (unitRun v r ins).res = (unitRun w q jns).res ∧ (unitRun v r ins).rv = (unitRun w q jns).rv ∧
      (unitRunMax w q jns).res = (unitRun v r ins).res ∧ (unitRunMax w q jns).rv = true

/-- R78, R100: `SETOFF` forgets everything but `RES`, two in a row equal the second alone, and a whole
transaction forgets that too: its end state is the same from every starting state. -/
def Obligations.HistoryIsForgotten : Prop :=
  (∀ (v : Variant) (r r' : Regs v) (d d' : BitVec v.dw),
    (∀ ins : List (Input v), r.res = r'.res →
      unitRun v r (⟨false, true, 0b01#2, d⟩ :: ins) = unitRun v r' (⟨false, true, 0b01#2, d⟩ :: ins)) ∧
    { unitStep v r ⟨false, true, 0b01#2, d⟩ with res := r'.res } =
      unitStep v r' ⟨false, true, 0b01#2, d⟩ ∧
    unitRun v r [⟨false, true, 0b01#2, d'⟩, ⟨false, true, 0b01#2, d⟩] =
      unitStep v r ⟨false, true, 0b01#2, d⟩) ∧
  (∀ (v : Variant) (o : Word) (B : Block) (r r' : Regs v) (ins ins' : List (Input v)),
    Performs v o B ins → Performs v o B ins' → unitRun v r ins = unitRun v r' ins')

/-- R101: two blocks with the same set of values, in particular a block and its permutations, give
transactions with the same `RES`. -/
def Obligations.ElementOrderIsImmaterial : Prop :=
  ∀ (v : Variant) (o : Word) (B B' : Block), (∀ x, x ∈ B.toList ↔ x ∈ B'.toList) →
    ∀ (r r' : Regs v) (ins ins' : List (Input v)), Performs v o B ins → Performs v o B' ins' →
      (unitRun v r ins).res = (unitRun v r' ins').res

/-- R103: for in-domain inputs `res` after a transaction is the least width in which every difference
fits, is the source's logarithm formula, and is 0 exactly when every element equals the offset. -/
def Obligations.InDomainResultIsTheNeededWidth : Prop :=
  ∀ (v : Variant) (o : Word) (B : Block) (r : Regs v) (ins : List (Input v)),
    InDomain o B → Performs v o B ins →
      (∀ b ∈ B.toList, b.toNat - o.toNat < 2 ^ (unitRun v r ins).res.toNat) ∧
      (∀ n, (∀ b ∈ B.toList, b.toNat - o.toNat < 2 ^ n) → (unitRun v r ins).res.toNat ≤ n) ∧
      (unitRun v r ins).res.toNat =
        Nat.clog 2 ((B.toList.map fun b => b.toNat - o.toNat).foldr max 0 + 1) ∧
      ((unitRun v r ins).res = 0 ↔ ∀ b ∈ B.toList, b = o)

/-- R104: for in-domain inputs, making one element larger never decreases `res`. -/
def Obligations.ResultIsMonotoneInEachElement : Prop :=
  ∀ (v : Variant) (o : Word) (B : Block) (i : Nat) (h : i < 128) (x : Word) (r r' : Regs v)
    (ins ins' : List (Input v)), InDomain o B → B[i].toNat < x.toNat →
      Performs v o B ins → Performs v o (B.set i x) ins' →
      (unitRun v r ins).res.toNat ≤ (unitRun v r' ins').res.toNat

/-- R106: for in-domain inputs the value returned after a transaction is wide enough for every
`B[i] - o`, so any pair of kernels that inverts wherever the bit width suffices gives the block back; the
packed block has `128 * res` bits, that is `16 * res` bytes, from 0 (every element equals the offset) to
512. -/
def Obligations.ReturnedWidthMakesPackingLossless : Prop :=
  ∀ (v : Variant) (o : Word) (B : Block) (r : Regs v) (ins : List (Input v)),
    InDomain o B → Performs v o B ins →
    ∀ n, n = (returnedValue (outputs (unitRun v r ins))).toNat →
      FitsWidth n o B ∧
      (∀ (pack : PackKernel) (unpack : UnpackKernel), Inverts pack unpack →
        unpack o n (pack o n B) = B) ∧
      packedBits n = 128 * (unitRun v r ins).res.toNat ∧
      packedBytes n = 16 * (unitRun v r ins).res.toNat ∧ packedBits n = 8 * packedBytes n ∧
      packedBytes n ≤ 512 ∧
      (packedBytes n = 0 ↔ ∀ b ∈ B.toList, b = o) ∧
      (packedBytes n = 512 ↔ ∃ b ∈ B.toList, 2 ^ 31 ≤ b.toNat - o.toNat)

/-- After a transaction, whatever is presented short of a `SETOFF` or a reset changes no register: the
result can be sampled at any later edge, and `ACC` commands for a next block without its `SETOFF` are
lost (R98, R125, R129). -/
def Obligations.FinishedTransactionIsHeld : Prop :=
  ∀ (v : Variant) (o : Word) (B : Block) (r : Regs v) (ins later : List (Input v)),
    Performs v o B ins → (∀ inp ∈ later, restarts v inp = false) →
      unitRun v r (ins ++ later) = unitRun v r ins

/-! ## The assembly language -/

/-- What the lines of the assembly language stand for (R57, R58): the inputs they assemble to decode to
the commands written, ignored bits are driven to 0, run lengths expand to repeated lanes, `maxbits`
assembles to the commands of the transaction, a line with a number out of range (an offset, an element, a
run length, the count of `idle`) or a wrong count of operands assembles to nothing, and consecutive lines
are presented on consecutive edges. That lines are terms, and that `idle` and `reset` edges drive the
ignored ports to 0, is the model's choice (assumption log, entry 13). -/
def Obligations.AssembledLinesDecode : Prop :=
  ∀ v : Variant,
    (∃ inp, assembleLine v .nop = some [inp] ∧ decodeInput v inp = .command .nop ∧ inp.cmdData = 0) ∧
    (∃ inp, assembleLine v .fin = some [inp] ∧ decodeInput v inp = .command .fin ∧ inp.cmdData = 0) ∧
    (∃ inp, assembleLine v .reset = some [inp] ∧ decodeInput v inp = .reset) ∧
    (∀ n < 2 ^ 32, ∃ inp, assembleLine v (.setoff n) = some [inp] ∧
      decodeInput v inp = .command (.setoff (BitVec.ofNat 32 n)) ∧
      ∀ k ≥ 32, inp.cmdData.getLsbD k = false) ∧
    (∀ n ≥ 2 ^ 32, assembleLine v (.setoff n) = none) ∧
    (∀ (runs : List (Nat × Nat)) (ws : List Word),
      ws = (runs.flatMap fun p => List.replicate p.2 (BitVec.ofNat 32 p.1)) →
      (∀ p ∈ runs, p.1 < 2 ^ 32 ∧ p.2 < 2 ^ 32) →
        expandRuns runs = some ws ∧
        (ws.length = v.lanes →
          ∃ inp, assembleLine v (.acc runs) = some [inp] ∧ decodeInput v inp = .command (.acc ws)) ∧
        (ws.length ≠ v.lanes → assembleLine v (.acc runs) = none) ∧
        (∀ o < 2 ^ 32, ∀ h : ws.toArray.size = Config.blockLength,
          ∃ ins, assembleLine v (.maxbits o runs) = some ins ∧
            ins.map (decodeInput v) =
              (transaction v (BitVec.ofNat 32 o) ⟨ws.toArray, h⟩).map StepKind.command ∧
            ins.length = v.chunks + 2 ∧ Performs v (BitVec.ofNat 32 o) ⟨ws.toArray, h⟩ ins) ∧
        (ws.length ≠ Config.blockLength → ∀ o, assembleLine v (.maxbits o runs) = none)) ∧
    (∀ runs : List (Nat × Nat), (∃ p ∈ runs, 2 ^ 32 ≤ p.1 ∨ 2 ^ 32 ≤ p.2) →
      expandRuns runs = none ∧ assembleLine v (.acc runs) = none ∧
      ∀ o, assembleLine v (.maxbits o runs) = none) ∧
    (∀ o ≥ 2 ^ 32, ∀ runs, assembleLine v (.maxbits o runs) = none) ∧
    (∀ n < 2 ^ 32, ∃ ins, assembleLine v (.idle n) = some ins ∧ ins.length = n ∧
      (∀ inp ∈ ins, inp.rst = false ∧ inp.cmdValid = false) ∧ ∀ r : Regs v, unitRun v r ins = r) ∧
    (∀ n ≥ 2 ^ 32, assembleLine v (.idle n) = none) ∧
    assemble v [] = some [] ∧
    ∀ (l : Line) (ls : List Line),
      (∀ a b, assembleLine v l = some a → assemble v ls = some b → assemble v (l :: ls) = some (a ++ b)) ∧
      (assembleLine v l = none ∨ assemble v ls = none → assemble v (l :: ls) = none)
end

