-- ==== Sys2Proof/Laws/Assembler.lean ====
section
/-! SUPPORT. What the parts of a line assemble to. -/

namespace Sys2Proof.Machine

/-- A number in range (R57). -/
theorem assembleNumber_of_lt {n : Nat} (h : n < 2 ^ 32) : assembleNumber n = some (BitVec.ofNat 32 n) := by
  rw [assembleNumber, if_pos h]

/-- A number out of range (R57). -/
theorem assembleNumber_of_ge {n : Nat} (h : 2 ^ 32 ≤ n) : assembleNumber n = none := by
  rw [assembleNumber, if_neg (by omega)]

@[simp] theorem expandRuns_nil : expandRuns [] = some [] := rfl

/-- A run in front of runs that expand. -/
theorem expandRuns_cons {e n : Nat} {rest : List (Nat × Nat)} {ws : List Word} (he : e < 2 ^ 32)
    (hn : n < 2 ^ 32) (hrest : expandRuns rest = some ws) :
    expandRuns ((e, n) :: rest) = some (List.replicate n (BitVec.ofNat 32 e) ++ ws) := by
  rw [expandRuns, assembleNumber_of_lt he, assembleNumber_of_lt hn, hrest]

/-- A run with a number out of range, or one that stands in front of runs that do not expand. -/
theorem expandRuns_cons_none {e n : Nat} {rest : List (Nat × Nat)}
    (h : 2 ^ 32 ≤ e ∨ 2 ^ 32 ≤ n ∨ expandRuns rest = none) : expandRuns ((e, n) :: rest) = none := by
  rcases h with h | h | h
  · rw [expandRuns, assembleNumber_of_ge h]
  · rw [expandRuns, assembleNumber_of_ge h]; cases assembleNumber e <;> rfl
  · rw [expandRuns, h]; cases assembleNumber e <;> cases assembleNumber n <;> rfl

end Sys2Proof.Machine
end

