-- ==== Sys2Proof/Laws/Datapath.lean ====
section
/-! SUPPORT. One characterisation per datapath function; every fact about bit widths follows from
`bw32_le_iff`, every fact about OR-sums from `getLsbD_orAll`. -/

namespace Sys2Proof.Machine

theorem or32_eq (a b : Word) : or32 a b = a ||| b := rfl
theorem sub32_eq (a b : Word) : sub32 a b = a - b := rfl

theorem leadingZeros_le (x : Word) (n : Nat) : leadingZeros x n ≤ n := by
  induction n with
  | zero => simp [leadingZeros]
  | succ n ih => unfold leadingZeros; split <;> omega

/-- At least `k` leading zeros below bit `n` exactly when bits `n - k` to `n - 1` are 0. -/
theorem le_leadingZeros_iff (x : Word) (n k : Nat) (hk : k ≤ n) :
    k ≤ leadingZeros x n ↔ ∀ i, n - k ≤ i → i < n → x.getLsbD i = false := by
  induction n generalizing k with
  | zero => simp at hk; subst hk; simp
  | succ n ih =>
    cases k with
    | zero => simp; intro i h1 h2; omega
    | succ k =>
      unfold leadingZeros
      split
      · rename_i hb
        simp only [Nat.le_zero, Nat.add_eq_zero_iff, one_ne_zero, and_false, false_iff]
        intro hall
        have := hall n (by omega) (by omega)
        simp [hb] at this
      · rename_i hb
        rw [Nat.add_le_add_iff_right, ih k (by omega)]
        constructor
        · intro hall i h1 h2
          rcases Nat.lt_succ_iff_lt_or_eq.mp h2 with h3 | h3
          · exact hall i (by omega) h3
          · subst h3; simpa using hb
        · intro hall i h1 h2
          exact hall i (by omega) (by omega)

theorem clz32_le (x : Word) : clz32 x ≤ 32 := leadingZeros_le x 32

theorem bw32_le (x : Word) : bw32 x ≤ 32 := Nat.sub_le _ _

/-- A width is at most `b` exactly when all bits from `b` up are 0. -/
theorem bw32_le_iff_bits (x : Word) (b : Nat) : bw32 x ≤ b ↔ ∀ i, b ≤ i → x.getLsbD i = false := by
  rcases Nat.lt_or_ge 32 b with hb | hb
  · constructor
    · intro _ i hi
      exact BitVec.getLsbD_of_ge x i (by omega)
    · intro _
      exact Nat.le_trans (bw32_le x) (by omega)
  · have h1 : bw32 x ≤ b ↔ 32 - b ≤ clz32 x := by
      have := clz32_le x
      unfold bw32; omega
    rw [h1, clz32, le_leadingZeros_iff x 32 (32 - b) (by omega)]
    constructor
    · intro h i hi
      rcases Nat.lt_or_ge i 32 with h3 | h3
      · exact h i (by omega) h3
      · exact BitVec.getLsbD_of_ge x i h3
    · intro h i hi _
      exact h i (by omega)

/-- The characterisation of `bw32`: the least width in which `x` fits (R67). -/
theorem bw32_le_iff (x : Word) (b : Nat) : bw32 x ≤ b ↔ x.toNat < 2 ^ b := by
  rw [bw32_le_iff_bits]
  constructor
  · intro h
    apply Nat.lt_pow_two_of_testBit
    intro i hi
    have := h i hi
    rwa [BitVec.getLsbD] at this
  · intro h i hi
    rw [BitVec.getLsbD]
    exact Nat.testBit_lt_two_pow (Nat.lt_of_lt_of_le h (Nat.pow_le_pow_right (by decide) hi))

@[simp] theorem orAll_nil : orAll [] = 0 := rfl
@[simp] theorem orAll_cons (x : Word) (xs : List Word) : orAll (x :: xs) = or32 x (orAll xs) := rfl

/-- Bit `i` of an OR-sum is 1 exactly when bit `i` of some member is. -/
theorem getLsbD_orAll (xs : List Word) (i : Nat) :
    (orAll xs).getLsbD i = xs.any fun x => x.getLsbD i := by
  induction xs with
  | nil => simp
  | cons x xs ih => simp [or32, ih]

theorem orAll_append (xs ys : List Word) : orAll (xs ++ ys) = or32 (orAll xs) (orAll ys) := by
  apply BitVec.eq_of_getLsbD_eq
  intro i _
  simp [or32, getLsbD_orAll]

@[simp] theorem maxAll_nil : maxAll [] = 0 := rfl
@[simp] theorem maxAll_cons (x : Word) (xs : List Word) : maxAll (x :: xs) = max32 x (maxAll xs) := rfl

theorem max32_toNat (a b : Word) : (max32 a b).toNat = max a.toNat b.toNat := by
  unfold max32; split <;> omega

/-- `RES` holds every bit width without loss: 6 bits hold 32 (R89). -/
theorem toNat_ofNat_bw32 (x : Word) : (BitVec.ofNat 6 (bw32 x)).toNat = bw32 x := by
  have := bw32_le x
  rw [BitVec.toNat_ofNat]
  exact Nat.mod_eq_of_lt (by omega)

end Sys2Proof.Machine
end

