-- ==== Sys2Proof/Laws/Collaborators.lean ====
section
/-! SUPPORT. In-domain differences and the width they fit in. -/

namespace Sys2Proof.Machine

/-- In domain the unit's difference is the ordinary one (R62). -/
theorem sub32_toNat_of_inDomain {o : Word} {B : Block} (h : InDomain o B) {b : Word}
    (hb : b ∈ B.toList) : (sub32 b o).toNat = b.toNat - o.toNat := by
  have hle := h b hb
  have hlt := b.isLt
  rw [sub32, BitVec.toNat_sub]
  omega

/-- What fits in a width fits in every larger one. -/
theorem fitsWidth_mono {n m : Nat} {o : Word} {B : Block} (hnm : n ≤ m) (h : FitsWidth n o B) :
    FitsWidth m o B := fun b hb => Nat.lt_of_lt_of_le (h b hb) (Nat.pow_le_pow_right (by decide) hnm)

/-- `n` bits for each of 128 elements are `16 n` whole bytes (R106). -/
theorem packedBits_eq (n : Nat) : packedBits n = 8 * packedBytes n := by
  simp only [packedBits, packedBytes, Config.blockLength]; omega

end Sys2Proof.Machine
end

