-- ==== Sys2Proof/Laws/Config.lean ====
section
/-! SUPPORT. Arithmetic of the derived parameters (R8), one lemma per use. -/

namespace Sys2Proof

theorem Variant.lanes_pos (v : Variant) : 0 < v.lanes := by cases v <;> decide

theorem Variant.chunks_pos (v : Variant) : 0 < v.chunks := by cases v <;> decide

theorem Variant.chunks_mul_lanes (v : Variant) : v.chunks * v.lanes = Config.blockLength := by
  cases v <;> decide

/-- `CNT` has room for `CHUNKS` and for one more. -/
theorem Variant.chunks_succ_le_two_pow_cw (v : Variant) : v.chunks + 1 ≤ 2 ^ v.cw := by
  cases v <;> decide

/-- The offset fits in `cmd_data`. -/
theorem Variant.word_le_dw (v : Variant) : 32 ≤ v.dw := by cases v <;> decide

theorem Variant.dw_eq (v : Variant) : v.dw = 32 * v.lanes := rfl

end Sys2Proof
end

