-- ==== Sys2Proof/Laws/Decode.lean ====
section
/-! SUPPORT. What decoding and encoding do, field by field. -/

namespace Sys2Proof

variable {v : Variant}

@[simp] theorem length_lanesOf (d : BitVec v.dw) : (lanesOf v d).length = v.lanes := by simp [lanesOf]

@[simp] theorem getElem_lanesOf (d : BitVec v.dw) (j : Nat) (h : j < (lanesOf v d).length) :
    (lanesOf v d)[j] = lane v d j := by simp [lanesOf]

theorem getD_lanesOf (d : BitVec v.dw) (j : Nat) (h : j < v.lanes) :
    (lanesOf v d).getD j 0 = lane v d j := by
  have h' : j < (lanesOf v d).length := by simpa using h
  rw [List.getD_eq_getElem _ _ h', getElem_lanesOf]

theorem decodeCommand_nop (d : BitVec v.dw) : decodeCommand v 0b00#2 d = .nop := rfl
theorem decodeCommand_setoff (d : BitVec v.dw) : decodeCommand v 0b01#2 d = .setoff (offsetField v d) := rfl
theorem decodeCommand_acc (d : BitVec v.dw) : decodeCommand v 0b10#2 d = .acc (lanesOf v d) := rfl
theorem decodeCommand_fin (d : BitVec v.dw) : decodeCommand v 0b11#2 d = .fin := rfl

/-- The four opcodes are all there are (R49). -/
theorem opcode_cases (op : BitVec 2) : op = 0b00#2 ∨ op = 0b01#2 ∨ op = 0b10#2 ∨ op = 0b11#2 := by
  revert op; decide

theorem decodeInput_reset (inp : Input v) (h : inp.rst = true) : decodeInput v inp = .reset := by
  simp [decodeInput, h]

theorem decodeInput_idle (inp : Input v) (h : inp.rst = false) (h' : inp.cmdValid = false) :
    decodeInput v inp = .command .nop := by simp [decodeInput, h, h']

theorem decodeInput_command (inp : Input v) (h : inp.rst = false) (h' : inp.cmdValid = true) :
    decodeInput v inp = .command (decodeCommand v inp.cmdOp inp.cmdData) := by
  simp [decodeInput, h, h']

/-- Everything `decodeInput` can answer. -/
theorem decodeInput_cases (inp : Input v) :
    (inp.rst = true ∧ decodeInput v inp = .reset) ∨
    (inp.rst = false ∧ decodeInput v inp = .command .nop) ∨
    (inp.rst = false ∧ decodeInput v inp = .command (.setoff (offsetField v inp.cmdData))) ∨
    (inp.rst = false ∧ decodeInput v inp = .command (.acc (lanesOf v inp.cmdData))) ∨
    (inp.rst = false ∧ decodeInput v inp = .command .fin) := by
  obtain ⟨rst, valid, op, d⟩ := inp
  cases rst
  · cases valid
    · exact .inr (.inl ⟨rfl, rfl⟩)
    · rcases opcode_cases op with rfl | rfl | rfl | rfl
      · exact .inr (.inl ⟨rfl, rfl⟩)
      · exact .inr (.inr (.inl ⟨rfl, rfl⟩))
      · exact .inr (.inr (.inr (.inl ⟨rfl, rfl⟩)))
      · exact .inr (.inr (.inr (.inr ⟨rfl, rfl⟩)))
  · exact .inl ⟨rfl, rfl⟩

/-- A decoded `acc` has `LANES` elements. -/
theorem length_of_decodeInput_acc {inp : Input v} {es : List Word}
    (h : decodeInput v inp = .command (.acc es)) : es.length = v.lanes := by
  rcases decodeInput_cases inp with ⟨-, h'⟩ | ⟨-, h'⟩ | ⟨-, h'⟩ | ⟨-, h'⟩ | ⟨-, h'⟩ <;> rw [h'] at h <;>
    simp_all
  rw [← h]; exact length_lanesOf _

/-! ## Packing the lanes of a data word -/

theorem packLanes_lt (es : List Word) : packLanes es < 2 ^ (32 * es.length) := by
  induction es with
  | nil => simp [packLanes]
  | cons e es ih =>
    have he := e.isLt
    have hsplit : 2 ^ (32 * (es.length + 1)) = 2 ^ 32 * 2 ^ (32 * es.length) := by
      rw [← Nat.pow_add]; congr 1; omega
    simp only [packLanes, List.length_cons, hsplit]
    nlinarith [Nat.mul_le_mul_left (2 ^ 32) (Nat.succ_le_of_lt ih)]

/-- Digit `j` of the packed number is element `j`. -/
theorem packLanes_digit (es : List Word) (j : Nat) (h : j < es.length) :
    packLanes es / 2 ^ (32 * j) % 2 ^ 32 = es[j].toNat := by
  induction es generalizing j with
  | nil => simp at h
  | cons e es ih =>
    have he := e.isLt
    cases j with
    | zero => simp [packLanes, Nat.add_mul_mod_self_left, Nat.mod_eq_of_lt he]
    | succ j =>
      have hstep : packLanes (e :: es) / 2 ^ (32 * (j + 1)) = packLanes es / 2 ^ (32 * j) := by
        have : (2 : Nat) ^ (32 * (j + 1)) = 2 ^ 32 * 2 ^ (32 * j) := by
          rw [← Nat.pow_add]; congr 1; omega
        rw [this, ← Nat.div_div_eq_div_mul, packLanes, Nat.add_mul_div_left _ _ (by positivity),
          Nat.div_eq_of_lt he, Nat.zero_add]
      rw [hstep]
      simpa using ih j (by simpa using h)

/-- Lane `j` of a data word as a number. -/
theorem lane_toNat (d : BitVec v.dw) (j : Nat) : (lane v d j).toNat = d.toNat / 2 ^ (32 * j) % 2 ^ 32 := by
  simp [lane, BitVec.extractLsb'_toNat, Nat.shiftRight_eq_div_pow]

/-- Lane `j` of the packed data word is element `j` (R34, R59). -/
theorem lane_operand_acc (es : List Word) (hlen : es.length = v.lanes) (j : Nat) (h : j < v.lanes) :
    lane v (operand v (.acc es)) j = es[j]'(hlen ▸ h) := by
  apply BitVec.eq_of_toNat_eq
  have hlt : packLanes es < 2 ^ v.dw := by
    have := packLanes_lt es
    rwa [hlen, ← Variant.dw_eq] at this
  rw [lane_toNat, operand, BitVec.toNat_ofNat, Nat.mod_eq_of_lt hlt]
  exact packLanes_digit es j (hlen ▸ h)

/-- Field `off` of the packed data word is the offset (R50). -/
theorem offsetField_operand_setoff (off : Word) : offsetField v (operand v (.setoff off)) = off := by
  apply BitVec.eq_of_toNat_eq
  have h32 := off.isLt
  have hdw : off.toNat < 2 ^ v.dw :=
    Nat.lt_of_lt_of_le h32 (Nat.pow_le_pow_right (by decide) v.word_le_dw)
  simp [offsetField, operand, BitVec.extractLsb'_toNat, Nat.mod_eq_of_lt hdw, Nat.mod_eq_of_lt h32]

/-- A command presented at the ports selects its own opcode's branch. -/
theorem decodeInput_present (i : Instr) :
    decodeInput v (present v i) = .command (decodeCommand v (opcode i) (operand v i)) := rfl

/-- The opcode field of a command word. -/
theorem encode_opcode (i : Instr) : (encode v i).extractLsb' 0 2 = opcode i := by
  apply BitVec.eq_of_getLsbD_eq
  intro k hk
  simp [encode, BitVec.getLsbD_append, hk]

/-- The operand field of a command word. -/
theorem encode_operand (i : Instr) : (encode v i).extractLsb' 2 v.dw = operand v i := by
  apply BitVec.eq_of_getLsbD_eq
  intro k hk
  have h2 : ¬ 2 + k < 2 := by omega
  simp only [encode, BitVec.getLsbD_extractLsb', BitVec.getLsbD_append, hk, h2, decide_true,
    Bool.true_and, Nat.add_sub_cancel_left, if_false]

/-- What `withFetchWord` presents decodes to what `decodeTableWord` answers. -/
theorem decodeInput_presentWord (w : BitVec v.commandBits) :
    decodeInput v (presentWord v w) = .command (decodeWord v w) := rfl

end Sys2Proof
end

