-- ==== Sys2Proof/Laws/State.lean ====
section
/-! SUPPORT. One lemma per field per update of the state and of the registers, so that no later proof
unfolds a record update. -/

namespace Sys2Proof.Machine

@[simp] theorem State.withRegs_regs (s : State) (r : Regs Config.variant) : (s.withRegs r).regs = r := rfl
@[simp] theorem State.withRegs_inputs (s : State) (r : Regs Config.variant) : (s.withRegs r).inputs = s.inputs := rfl
@[simp] theorem State.withInputs_regs (s : State) (l : List (Input Config.variant)) : (s.withInputs l).regs = s.regs := rfl
@[simp] theorem State.withInputs_inputs (s : State) (l : List (Input Config.variant)) : (s.withInputs l).inputs = l := rfl
@[simp] theorem State.withRegs_self (s : State) : s.withRegs s.regs = s := rfl
@[simp] theorem State.withRegs_withRegs (s : State) (a b : Regs Config.variant) :
    (s.withRegs a).withRegs b = s.withRegs b := rfl
@[simp] theorem State.withInputs_withInputs (s : State) (a b : List (Input Config.variant)) :
    (s.withInputs a).withInputs b = s.withInputs b := rfl

@[simp] theorem afterSample_regs (s : State) : (afterSample s).regs = s.regs := rfl
@[simp] theorem afterSample_inputs (s : State) : (afterSample s).inputs = s.inputs.tail := rfl
@[simp] theorem resetStep_regs (s : State) : (resetStep s).regs = Regs.reset Config.variant := rfl
@[simp] theorem resetStep_inputs (s : State) : (resetStep s).inputs = s.inputs := rfl

section Registers
variable {v : Variant} (r : Regs v)

@[simp] theorem Regs.reset_off (v : Variant) : (Regs.reset v).off = 0 := rfl
@[simp] theorem Regs.reset_acc (v : Variant) : (Regs.reset v).acc = Vector.replicate v.lanes 0 := rfl
@[simp] theorem Regs.reset_cnt (v : Variant) : (Regs.reset v).cnt = 0 := rfl
@[simp] theorem Regs.reset_res (v : Variant) : (Regs.reset v).res = 0 := rfl
@[simp] theorem Regs.reset_rv (v : Variant) : (Regs.reset v).rv = false := rfl

@[simp] theorem startBlock_off (o : Word) : (startBlock o r).off = o := rfl
@[simp] theorem startBlock_acc (o : Word) : (startBlock o r).acc = Vector.replicate v.lanes 0 := rfl
@[simp] theorem startBlock_cnt (o : Word) : (startBlock o r).cnt = 0 := rfl
@[simp] theorem startBlock_res (o : Word) : (startBlock o r).res = r.res := rfl
@[simp] theorem startBlock_rv (o : Word) : (startBlock o r).rv = false := rfl

@[simp] theorem finish_off : (finish r).off = r.off := rfl
@[simp] theorem finish_acc : (finish r).acc = r.acc := rfl
@[simp] theorem finish_cnt : (finish r).cnt = r.cnt := rfl
@[simp] theorem finish_res : (finish r).res = BitVec.ofNat 6 (bw32 (hor r.acc)) := rfl
@[simp] theorem finish_rv : (finish r).rv = true := rfl

theorem accepts_iff : accepts r = true ↔ r.cnt.toNat < v.chunks := by simp [accepts]

theorem full_iff : full r = true ↔ r.cnt.toNat = v.chunks := by simp [full]

@[simp] theorem outputs_res : (outputs r).res = r.res := rfl
@[simp] theorem outputs_resValid : (outputs r).resValid = r.rv := rfl
@[simp] theorem outputs_cnt : (outputs r).cnt = r.cnt := rfl
@[simp] theorem outputs_full : (outputs r).full = full r := rfl

end Registers

end Sys2Proof.Machine
end

