-- ==== Sys2Proof/Laws/Ops.lean ====
section
/-! SUPPORT. For each shared operation, once, everything it can do; and the same for a step. -/

namespace Sys2Proof.Machine

section Registers
variable {v : Variant}

@[simp] theorem getElem_laneOperand (es : List Word) (j : Nat) (h : j < v.lanes) :
    (laneOperand v es)[j] = es.getD j 0 := by
  simp only [laneOperand, Vector.getElem_mk, List.getElem_toArray, List.getElem_take]
  rcases Nat.lt_or_ge j es.length with hj | hj
  · rw [List.getElem_append_left hj, List.getD_eq_getElem _ _ hj]
  · rw [List.getElem_append_right hj, List.getElem_replicate, List.getD_eq_default _ _ hj]

@[simp] theorem getElem_lanewise {n : Nat} (f : Word → Word → Word) (a b : Vector Word n) (j : Nat)
    (h : j < n) : (lanewise f a b)[j] = f a[j] b[j] := by simp [lanewise]

@[simp] theorem getElem_accumulateLanes {n : Nat} (off : Word) (acc e : Vector Word n) (j : Nat)
    (h : j < n) : (accumulateLanes off acc e)[j] = or32 acc[j] (sub32 e[j] off) := by
  simp [accumulateLanes]

/-- A dropped `ACC` leaves the registers alone (R83). -/
theorem accumulate_dropped (e : Vector Word v.lanes) (r : Regs v) (h : ¬ r.cnt.toNat < v.chunks) :
    accumulate e r = r := by
  have : accepts r = false := by simpa [accepts] using h
  simp [accumulate, this]

/-- An accepted `ACC` as one equation (R81). -/
theorem accumulate_accepted (e : Vector Word v.lanes) (r : Regs v) (h : r.cnt.toNat < v.chunks) :
    accumulate e r = { r with acc := accumulateLanes r.off r.acc e, cnt := r.cnt + 1, rv := false } := by
  have : accepts r = true := by simpa [accepts] using h
  simp [accumulate, this]

@[simp] theorem accumulate_off (e : Vector Word v.lanes) (r : Regs v) : (accumulate e r).off = r.off := by
  unfold accumulate; split <;> rfl

@[simp] theorem accumulate_res (e : Vector Word v.lanes) (r : Regs v) : (accumulate e r).res = r.res := by
  unfold accumulate; split <;> rfl

/-- `CNT` counts without wrapping: `2^CW` exceeds `CHUNKS` (R18). -/
theorem cnt_succ_toNat (c : BitVec v.cw) (h : c.toNat < v.chunks) : (c + 1).toNat = c.toNat + 1 := by
  have h1 := v.chunks_succ_le_two_pow_cw
  have hw : 1 % 2 ^ v.cw = 1 := Nat.mod_eq_of_lt (by omega)
  have h2 : (1 : BitVec v.cw).toNat = 1 := by
    change (BitVec.ofNat v.cw 1).toNat = 1
    rw [BitVec.toNat_ofNat, hw]
  rw [BitVec.toNat_add, h2]
  exact Nat.mod_eq_of_lt (by omega)

theorem accumulate_cnt_toNat (e : Vector Word v.lanes) (r : Regs v) :
    (accumulate e r).cnt.toNat = if r.cnt.toNat < v.chunks then r.cnt.toNat + 1 else r.cnt.toNat := by
  split
  · rename_i h; rw [accumulate_accepted e r h]; exact cnt_succ_toNat r.cnt h
  · rename_i h; rw [accumulate_dropped e r h]

/-- The lanes after `ACC`, accepted or dropped. -/
theorem accumulate_acc (e : Vector Word v.lanes) (r : Regs v) :
    (accumulate e r).acc =
      if r.cnt.toNat < v.chunks then accumulateLanes r.off r.acc e else r.acc := by
  split
  · rename_i h; rw [accumulate_accepted e r h]
  · rename_i h; rw [accumulate_dropped e r h]

/-- Everything one rising edge can do to the registers, by what is sampled at it (R17, R95). -/
theorem unitStep_cases (r : Regs v) (inp : Input v) :
    (decodeInput v inp = .reset ∧ unitStep v r inp = Regs.reset v) ∨
    (decodeInput v inp = .command .nop ∧ unitStep v r inp = r) ∨
    (∃ o, decodeInput v inp = .command (.setoff o) ∧ unitStep v r inp = startBlock o r) ∨
    (∃ es, decodeInput v inp = .command (.acc es) ∧ es.length = v.lanes ∧
      unitStep v r inp = accumulate (laneOperand v es) r) ∨
    (decodeInput v inp = .command .fin ∧ unitStep v r inp = finish r) := by
  rcases decodeInput_cases inp with ⟨-, h⟩ | ⟨-, h⟩ | ⟨-, h⟩ | ⟨-, h⟩ | ⟨-, h⟩
  · exact .inl ⟨h, by rw [unitStep, h]⟩
  · exact .inr (.inl ⟨h, by rw [unitStep, h]; rfl⟩)
  · exact .inr (.inr (.inl ⟨_, h, by rw [unitStep, h]; rfl⟩))
  · exact .inr (.inr (.inr (.inl ⟨_, h, length_lanesOf _, by rw [unitStep, h]; rfl⟩)))
  · exact .inr (.inr (.inr (.inr ⟨h, by rw [unitStep, h]; rfl⟩)))

@[simp] theorem unitRun_nil (r : Regs v) : unitRun v r [] = r := rfl
@[simp] theorem unitRun_cons (r : Regs v) (inp : Input v) (ins : List (Input v)) :
    unitRun v r (inp :: ins) = unitRun v (unitStep v r inp) ins := rfl
theorem unitRun_append (r : Regs v) (a b : List (Input v)) :
    unitRun v r (a ++ b) = unitRun v (unitRun v r a) b := by simp [unitRun]

end Registers

/-! ## The machine -/

@[simp] theorem exec_nop (s : State) : exec .nop s = .next s := rfl
@[simp] theorem exec_setoff (off : Word) (s : State) :
    exec (.setoff off) s = .next (s.withRegs (startBlock off s.regs)) := rfl
@[simp] theorem exec_acc (es : List Word) (s : State) :
    exec (.acc es) s = .next (s.withRegs (accumulate (laneOperand Config.variant es) s.regs)) := rfl
@[simp] theorem exec_fin (s : State) : exec .fin s = .next (s.withRegs (finish s.regs)) := rfl

@[simp] theorem sampledInput_cons (r : Regs Config.variant) (inp : Input Config.variant)
    (rest : List (Input Config.variant)) : sampledInput ⟨r, inp :: rest⟩ = inp := rfl
@[simp] theorem sampledInput_nil (r : Regs Config.variant) :
    sampledInput ⟨r, []⟩ = Input.idle Config.variant := rfl

end Sys2Proof.Machine
end

