-- ==== Sys2Proof/Laws/MaxVariant.lean ====
section
/-! SUPPORT. For each operation of the maximum implementation, once, everything it can do; and the same
for one of its edges. -/

namespace Sys2Proof.Machine

variable {v : Variant}

/-- A dropped `ACC` leaves the registers alone (R83). -/
theorem accumulateMax_dropped (e : Vector Word v.lanes) (r : Regs v) (h : ¬ r.cnt.toNat < v.chunks) :
    accumulateMax e r = r := by
  have : accepts r = false := by simpa [accepts] using h
  simp [accumulateMax, this]

/-- An accepted `ACC` as one equation (R73). -/
theorem accumulateMax_accepted (e : Vector Word v.lanes) (r : Regs v) (h : r.cnt.toNat < v.chunks) :
    accumulateMax e r =
      { r with acc := lanewise (fun a x => max32 a (sub32 x r.off)) r.acc e, cnt := r.cnt + 1, rv := false } := by
  have : accepts r = true := by simpa [accepts] using h
  simp [accumulateMax, this]

@[simp] theorem finishMax_off (r : Regs v) : (finishMax r).off = r.off := rfl
@[simp] theorem finishMax_acc (r : Regs v) : (finishMax r).acc = r.acc := rfl
@[simp] theorem finishMax_cnt (r : Regs v) : (finishMax r).cnt = r.cnt := rfl
@[simp] theorem finishMax_rv (r : Regs v) : (finishMax r).rv = true := rfl
@[simp] theorem finishMax_res (r : Regs v) :
    (finishMax r).res = BitVec.ofNat 6 (bw32 (horMax r.acc)) := rfl

/-- Everything one rising edge can do to the registers of the maximum implementation. -/
theorem unitStepMax_cases (r : Regs v) (inp : Input v) :
    (decodeInput v inp = .reset ∧ unitStepMax v r inp = Regs.reset v) ∨
    (decodeInput v inp = .command .nop ∧ unitStepMax v r inp = r) ∨
    (∃ o, decodeInput v inp = .command (.setoff o) ∧ unitStepMax v r inp = startBlock o r) ∨
    (∃ es, decodeInput v inp = .command (.acc es) ∧ es.length = v.lanes ∧
      unitStepMax v r inp = accumulateMax (laneOperand v es) r) ∨
    (decodeInput v inp = .command .fin ∧ unitStepMax v r inp = finishMax r) := by
  rcases decodeInput_cases inp with ⟨-, h⟩ | ⟨-, h⟩ | ⟨-, h⟩ | ⟨-, h⟩ | ⟨-, h⟩
  · exact .inl ⟨h, by rw [unitStepMax, h]⟩
  · exact .inr (.inl ⟨h, by rw [unitStepMax, h]; rfl⟩)
  · exact .inr (.inr (.inl ⟨_, h, by rw [unitStepMax, h]; rfl⟩))
  · exact .inr (.inr (.inr (.inl ⟨_, h, length_lanesOf _, by rw [unitStepMax, h]; rfl⟩)))
  · exact .inr (.inr (.inr (.inr ⟨h, by rw [unitStepMax, h]; rfl⟩)))

@[simp] theorem unitRunMax_nil (r : Regs v) : unitRunMax v r [] = r := rfl
@[simp] theorem unitRunMax_cons (r : Regs v) (inp : Input v) (ins : List (Input v)) :
    unitRunMax v r (inp :: ins) = unitRunMax v (unitStepMax v r inp) ins := rfl

end Sys2Proof.Machine
end

