-- ==== Sys2Proof/Laws/Operands.lean ====
section
/-! SUPPORT. What the byte image of a chunk and the chunks of a block are, digit by digit. -/

namespace Sys2Proof.Machine

theorem littleEndian_lt (m : List Byte) : littleEndian m < 2 ^ (8 * m.length) := by
  induction m with
  | nil => simp [littleEndian]
  | cons b m ih =>
    have hb := b.isLt
    have hsplit : 2 ^ (8 * (m.length + 1)) = 2 ^ 8 * 2 ^ (8 * m.length) := by
      rw [← Nat.pow_add]; congr 1; omega
    simp only [littleEndian, List.length_cons, hsplit]
    omega

/-- Byte `t` of the number is byte `t` of the sequence (R36). -/
theorem littleEndian_digit (m : List Byte) (t : Nat) :
    littleEndian m / 2 ^ (8 * t) % 2 ^ 8 = (m.getD t 0).toNat := by
  induction m generalizing t with
  | nil => simp [littleEndian]
  | cons b m ih =>
    have hb := b.isLt
    cases t with
    | zero =>
      simp only [littleEndian, Nat.mul_zero, Nat.pow_zero, Nat.div_one, List.getD_cons_zero]
      omega
    | succ t =>
      have hsplit : (2 : Nat) ^ (8 * (t + 1)) = 2 ^ 8 * 2 ^ (8 * t) := by
        rw [← Nat.pow_add]; congr 1; omega
      have htail : littleEndian (b :: m) / 2 ^ 8 = littleEndian m := by
        simp only [littleEndian]; omega
      rw [hsplit, ← Nat.div_div_eq_div_mul, htail, ih, List.getD_cons_succ]

/-- Element `j` of chunk `k` is element `k * LANES + j` of the block (R35). -/
theorem getElem?_chunk (v : Variant) (B : Block) (k j : Nat) (hj : j < v.lanes) :
    (chunk v B k)[j]? = B.toList[k * v.lanes + j]? := by
  simp [chunk, hj]

end Sys2Proof.Machine
end

