-- ==== Sys2Proof/Laws/PerInstr.lean ====
section
/-! SUPPORT. Statements made of every command by one lemma per constructor. -/

namespace Sys2Proof.Laws

/-- The match value of the command's row of spec/opcode_table.json. -/
def tableMatch : Instr → Nat
  | .nop => 0x0
  | .setoff _ => 0x1
  | .acc _ => 0x2
  | .fin => 0x3

/-- The encoding of a command carries the opcode of its row of the opcode table (R49): the word masked
with `0x3` is the row's match value. -/
def EncodesItsRow.Statement (i : Instr) : Prop :=
  ∀ v : Variant, (encode v i).toNat &&& 0x3 = tableMatch i

theorem encode_and_mask (v : Variant) (i : Instr) : (encode v i).toNat &&& 0x3 = (opcode i).toNat := by
  have h := congrArg BitVec.toNat (encode_opcode (v := v) i)
  have hmask : (encode v i).toNat &&& 0x3 = (encode v i).toNat % 2 ^ 2 :=
    Nat.and_two_pow_sub_one_eq_mod _ 2
  rw [hmask]
  simpa [BitVec.extractLsb'_toNat] using h

theorem EncodesItsRow.nop : EncodesItsRow.Statement .nop := fun v => encode_and_mask v .nop
theorem EncodesItsRow.setoff (off : Word) : EncodesItsRow.Statement (.setoff off) :=
  fun v => encode_and_mask v (.setoff off)
theorem EncodesItsRow.acc (elems : List Word) : EncodesItsRow.Statement (.acc elems) :=
  fun v => encode_and_mask v (.acc elems)
theorem EncodesItsRow.fin : EncodesItsRow.Statement .fin := fun v => encode_and_mask v .fin

end Sys2Proof.Laws
end

