-- ==== Sys2Proof/Laws/Transaction.lean ====
section
/-! SUPPORT. What one edge can do when it restarts nothing, and when it is a filler of a transaction. -/

namespace Sys2Proof.Machine

variable {v : Variant}

/-- An edge that is neither a `SETOFF` nor a reset does nothing, accumulates or finishes. -/
theorem unitStep_of_no_restart (r : Regs v) (inp : Input v) (h : restarts v inp = false) :
    unitStep v r inp = r ∨
    (∃ es, decodeInput v inp = .command (.acc es) ∧ es.length = v.lanes ∧
      unitStep v r inp = accumulate (laneOperand v es) r) ∨
    unitStep v r inp = finish r := by
  rcases unitStep_cases r inp with ⟨h1, -⟩ | ⟨-, h2⟩ | ⟨o, h1, -⟩ | ⟨es, h1, h2, h3⟩ | ⟨-, h2⟩
  · simp [restarts, h1] at h
  · exact .inl h2
  · simp [restarts, h1] at h
  · exact .inr (.inl ⟨es, h1, h2, h3⟩)
  · exact .inr (.inr h2)

/-- A filler leaves the offset, the lanes and the count alone. -/
theorem unitStep_of_filler (r : Regs v) (inp : Input v) (h : isFiller v r.cnt.toNat inp = true) :
    (unitStep v r inp).off = r.off ∧ (unitStep v r inp).acc = r.acc ∧ (unitStep v r inp).cnt = r.cnt := by
  rcases unitStep_cases r inp with ⟨h1, h2⟩ | ⟨h1, h2⟩ | ⟨o, h1, h2⟩ | ⟨es, h1, -, h2⟩ | ⟨h1, h2⟩ <;>
    rw [h2] <;> simp [isFiller, h1] at h ⊢
  rw [accumulate_dropped _ _ (by omega)]
  simp

/-- An edge at which elements are presented is an `ACC` with `LANES` of them. -/
theorem unitStep_of_accElements (r : Regs v) {inp : Input v} {es : List Word}
    (h : accElements v inp = some es) :
    unitStep v r inp = accumulate (laneOperand v es) r ∧ es.length = v.lanes := by
  rcases unitStep_cases r inp with ⟨h1, -⟩ | ⟨h1, -⟩ | ⟨o, h1, -⟩ | ⟨es', h1, h3, h2⟩ | ⟨h1, -⟩ <;>
    simp [accElements, h1] at h
  subst h
  exact ⟨h2, h3⟩

end Sys2Proof.Machine
end

