-- ==== Sys2Proof/Tests/Slice0.lean ====
section
/-! SUPPORT. Small tests, each on one word, one operation or one step, with the vector of
95_test_vectors.md it comes from, and one witness for every statement of Obligations.lean that has
hypotheses: a concrete state and operands that meet them all. -/

/- One declaration at a time: the many small kernel evaluations below otherwise wait for one another, each
on a thread of its own. -/
set_option Elab.async false

namespace Sys2Proof.Tests

open Sys2Proof.Machine

/-! ## Well-formedness (smoke) -/

theorem test_wellFormed_refuses_short_acc : wellFormed .l4 (.acc [1, 2, 3]) = false := by decide
theorem test_wellFormed_refuses_long_acc : wellFormed .l4 (.acc [1, 2, 3, 4, 5]) = false := by decide
theorem test_wellFormed_accepts_acc : wellFormed .l4 (.acc [1, 2, 3, 4]) = true := by decide

/-! ## Decoding: words written out from R48 and R49 -/

/-- R49: `op = 0b00`. -/
theorem test_decode_nop : decodeTableWord 2 0b00 = some .nop := by decide +kernel
/-- V-S1: `op=01 data=0x64`; the word is `0x64 * 4 + 0b01`. -/
theorem test_decode_setoff : decodeTableWord 34 0b000000000000000000000000011001000_1 = some (.setoff 100) := by
  decide +kernel
/-- V-S5: `op=01 data=0x0000000500000007` for `LANES = 2`: the upper lane is ignored. -/
theorem test_decode_setoff_ignores_upper_lane :
    decodeWord .l2 (BitVec.ofNat _ (0x0000000500000007 * 4 + 0b01)) = .setoff 7 := by decide +kernel
/-- V-A1: `op=10 data=0x0000010A0000000E0000000B0000000A` for `LANES = 4`, lane 0 first. -/
theorem test_decode_acc :
    decodeWord .l4 (BitVec.ofNat _ (0x0000010A0000000E0000000B0000000A * 4 + 0b10)) =
      .acc [10, 11, 14, 266] := by decide +kernel
/-- P1, cycle 5: lane 5 is `0xFFFFFFFF`, the others 0, that is `0xFFFFFFFF << 160`. -/
theorem test_decode_acc_hardware :
    decodeTableWord 4098 (0xFFFFFFFF * 2 ^ 160 * 4 + 0b10) =
      some (.acc (List.replicate 5 0 ++ 0xFFFFFFFF :: List.replicate 122 0)) := by decide +kernel
/-- R49: `op = 0b11`. -/
theorem test_decode_fin : decodeTableWord 2 0b11 = some .fin := by decide +kernel
/-- V-A1 the other way round: the listing form of R59. -/
theorem test_encode_acc :
    (encode .l4 (.acc [10, 11, 14, 266])).toNat = 0x0000010A0000000E0000000B0000000A * 4 + 0b10 := by
  decide +kernel
/-- R36: the four bytes of one element, lowest address first. -/
theorem test_bytes : (dataOfBytes .l1 [0x78, 0x56, 0x34, 0x12]).toNat = 0x12345678 := by decide

/-! ## The datapath: rows of 95_test_vectors.md section 2 -/

/-- 2.1: in domain and wrapped. -/
theorem test_sub32 : sub32 0x4E7 0x3E8 = 0xFF ∧ sub32 0x3E8 0x4E7 = 0xFFFFFF01 ∧ sub32 0 0xFFFFFFFF = 1 := by
  decide
/-- 2.2: zero, a threshold, and the top. -/
theorem test_bw32 : bw32 0 = 0 ∧ bw32 0xFF = 8 ∧ bw32 0x100 = 9 ∧ bw32 0x80000000 = 32 ∧ clz32 0xF0F0F0 = 8 := by
  decide
/-- 2.3: OR is not the maximum. -/
theorem test_hor : hor #v[(5 : Word), 2] = 7 ∧ horMax #v[(5 : Word), 2] = 5 ∧
    horTree 2 #v[0xFC, 0xFF, 0xFE, 0xFD] = 0xFF := by decide
/-- V-X4 and V-X8: out of domain, and not 32. -/
theorem test_maxbits_wrapped : maxbitsFOR 0xFFFFFFFF (Vector.replicate 128 0) = 1 ∧
    maxbitsFOR 0x80000001 (Vector.replicate 128 0) = 31 := by decide +kernel
/-- V-X1: `B[i] = 100 + 3 i`, offset 100. -/
theorem test_maxbits_ramp :
    maxbitsFOR 100 (Vector.ofFn fun i : Fin 128 => BitVec.ofNat 32 (100 + 3 * i.val)) = 9 := by
  decide +kernel

/-! ## One step of each command -/

/-- V-N1: ignored data on a `NOP`. -/
theorem test_nop : unitStep .l4 ⟨7, #v[0, 1, 4, 0x100], 1, 9, true⟩
    ⟨false, true, 0b00#2, BitVec.allOnes 128⟩ = ⟨7, #v[0, 1, 4, 0x100], 1, 9, true⟩ := by decide +kernel
/-- V-N2: `cmd_valid = 0` with the opcode of `ACC` is no `ACC`. -/
theorem test_idle : unitStep .l4 ⟨7, #v[0, 1, 4, 0x100], 1, 9, true⟩
    ⟨false, false, 0b10#2, operand .l4 (.acc [9, 9, 9, 9])⟩ = ⟨7, #v[0, 1, 4, 0x100], 1, 9, true⟩ := by
  decide +kernel
/-- V-N3: reset wins over `FIN`. -/
theorem test_reset : unitStep .l4 ⟨7, #v[0, 1, 4, 0x100], 1, 9, true⟩ ⟨true, true, 0b11#2, 0⟩ =
    ⟨0, #v[0, 0, 0, 0], 0, 0, false⟩ := by decide +kernel
/-- V-S2: `RES` is kept, `RV` cleared. -/
theorem test_setoff : unitStep .l4 ⟨0, #v[1, 2, 3, 4], 1, 3, true⟩ ⟨false, true, 0b01#2, 10⟩ =
    ⟨0xA, #v[0, 0, 0, 0], 0, 3, false⟩ := by decide +kernel
/-- V-S3: `SETOFF` on a full unit. -/
theorem test_setoff_full : outputs (unitStep .l4 ⟨0xA, #v[0xFFFFFFFF, 1, 4, 0x100], 32, 32, true⟩
    ⟨false, true, 0b01#2, 0xFFFFFFFF⟩) = ⟨32, false, 0, false⟩ := by decide +kernel
/-- V-A2: lane 0 wraps, `RV` is cleared, `RES` is not. -/
theorem test_acc_wraps : unitStep .l4 ⟨0xA, #v[0, 1, 4, 0x100], 1, 9, true⟩
    ⟨false, true, 0b10#2, 0x0000000A0000000A0000000A00000009⟩ =
      ⟨0xA, #v[0xFFFFFFFF, 1, 4, 0x100], 2, 9, false⟩ := by decide +kernel
/-- V-A4: the 33rd `ACC` is dropped. -/
theorem test_acc_dropped : unitStep .l4 ⟨0xA, #v[0xFFFFFFFF, 1, 4, 0x100], 32, 32, false⟩
    ⟨false, true, 0b10#2, 0⟩ = ⟨0xA, #v[0xFFFFFFFF, 1, 4, 0x100], 32, 32, false⟩ := by decide +kernel
/-- V-F2: `h = 0x105`. -/
theorem test_fin : unitStep .l4 ⟨0xA, #v[0, 1, 4, 0x100], 1, 3, false⟩ ⟨false, true, 0b11#2, 0⟩ =
    ⟨0xA, #v[0, 1, 4, 0x100], 1, 9, true⟩ := by decide +kernel
/-- V-F3: `RES = 32`, the value that needs all 6 bits. -/
theorem test_fin_32 : (unitStep .l4 ⟨0xA, #v[0xFFFFFFFF, 1, 4, 0x100], 2, 9, false⟩
    ⟨false, true, 0b11#2, 0⟩).res = 0b100000#6 := by decide +kernel

/-- The hardware's block of V-A9: 126 elements 1000, then 1255 and 1256. -/
def blockA9 : Block := ⟨(List.replicate 126 1000#32 ++ [1255#32, 1256#32]).toArray, by simp⟩

/-- V-A9 on the machine: a whole block in one command. -/
theorem test_machine_acc :
    (match exec (.acc blockA9.toList) ⟨⟨1000, Vector.replicate _ 0, 0, 32, false⟩, []⟩ with
      | .next t => (t.regs.acc[125] == 0) && (t.regs.acc[126] == 0xFF) && (t.regs.acc[127] == 0x100) &&
          full t.regs && (t.regs.res == 32)
      | .fault _ => false
      | .refused _ => false) = true := by decide +kernel

/-- A placed table word runs as the first command after reset: the row of `FIN` (V-F10). -/
theorem test_first_step_fin :
    (match step (State.reset.withFetchWord 8 0x3) with
      | .next t => t == ⟨⟨0, Vector.replicate _ 0, 0, 0, true⟩, []⟩
      | .fault _ => false
      | .refused _ => false) = true := by decide +kernel
/-- The row of `ACC`, its operand words 0: accepted, so `CNT = 1`. -/
theorem test_first_step_acc :
    (match step (State.reset.withFetchWord 8 0x2) with
      | .next t => t == ⟨⟨0, Vector.replicate _ 0, 1, 0, false⟩, []⟩
      | .fault _ => false
      | .refused _ => false) = true := by decide +kernel

/-! ## Assembly -/

/-- R57: the run-length shorthand of P2, cycle 1. -/
theorem test_assemble_acc :
    assembleLine .l128 (.acc [(1000, 126), (1255, 1), (1256, 1)]) =
      some [present .l128 (.acc blockA9.toList)] := by decide +kernel
/-- R57: exactly `LANES` operands, numbers below `2^32`. -/
theorem test_assemble_refuses : assembleLine .l4 (.acc [(1, 3)]) = none ∧
    assembleLine .l4 (.setoff 0x100000000) = none ∧ assembleLine .l4 (.idle 0x100000000) = none := by decide

/-! ## Witnesses: every statement with hypotheses has a case -/

/-- Registers of a unit with `LANES = 4` in the middle of a block, its last result current. -/
def midBlock : Regs .l4 := ⟨0xA, #v[0, 1, 4, 0x100], 1, 9, true⟩
/-- Registers of a full unit with `LANES = 4` (V-S3). -/
def fullBlock : Regs .l4 := ⟨0xA, #v[0xFFFFFFFF, 1, 4, 0x100], 32, 32, true⟩
/-- This hardware with a free accumulator, and with a full one. -/
def freeState : State := ⟨⟨1000, Vector.replicate _ 0, 0, 32, false⟩, []⟩
def fullState : State := ⟨⟨1000, Vector.replicate _ 0, 1, 32, false⟩, []⟩
/-- Inputs without a restart: an accepted `ACC`, a `FIN`, an idle edge. -/
def fillers : List (Input .l4) := [present .l4 (.acc [10, 11, 14, 266]), present .l4 .fin, Input.idle .l4]
/-- Inputs that perform the transaction on this hardware with an idle edge, an extra `FIN` and a dropped
`ACC` in between. -/
def performsA9 : List (Input .l128) :=
  [present .l128 (.setoff 1000), Input.idle .l128, present .l128 .fin, present .l128 (.acc blockA9.toList),
    present .l128 (.acc (List.replicate 128 0)), present .l128 .fin]
/-- The same block on the unit with `LANES = 64`. -/
def performsA9Half : List (Input .l64) := (transaction .l64 1000 blockA9).map (present .l64)
/-- The block with its first element raised, and the inputs for it. -/
def raisedA9 : Block := blockA9.set 0 2000#32
def performsRaised : List (Input .l128) := (transaction .l128 1000 raisedA9).map (present .l128)

theorem witness_performs : Performs .l128 1000 blockA9 performsA9 :=
  ⟨present .l128 (.setoff 1000), [Input.idle .l128, present .l128 .fin, present .l128 (.acc blockA9.toList),
    present .l128 (.acc (List.replicate 128 0))], present .l128 .fin, rfl, by decide +kernel,
    by decide +kernel, by decide +kernel⟩

theorem witness_performs_half : Performs .l64 1000 blockA9 performsA9Half :=
  ⟨present .l64 (.setoff 1000), [present .l64 (.acc (chunk .l64 blockA9 0)), present .l64 (.acc (chunk .l64 blockA9 1))],
    present .l64 .fin, by decide +kernel, by decide +kernel, by decide +kernel, by decide +kernel⟩

theorem witness_performs_raised : Performs .l128 1000 raisedA9 performsRaised :=
  ⟨present .l128 (.setoff 1000), [present .l128 (.acc (chunk .l128 raisedA9 0))], present .l128 .fin,
    by decide +kernel, by decide +kernel, by decide +kernel, by decide +kernel⟩

/-- A property of every element of a concrete list, checked element by element. -/
theorem forall_mem_of_all {l : List Word} {p : Word → Prop} [DecidablePred p]
    (h : l.all (fun x => decide (p x)) = true) : ∀ x ∈ l, p x := by
  simp_all

theorem witness_inDomain : InDomain 1000 blockA9 := forall_mem_of_all (by decide +kernel)

theorem witness_DecodeInvertsEncode : WellFormed .l4 .nop ∧ WellFormed .l4 (.setoff 0xFFFFFFFF) ∧
    WellFormed .l4 (.acc [1, 2, 3, 4]) ∧ WellFormed .l4 .fin := by decide

/-- Two different data words that agree on the bits `SETOFF` reads (R80 (c)). -/
theorem witness_IgnoredBitsHaveNoEffect : ∃ d d' : BitVec (Variant.dw .l2), d ≠ d' ∧
    d.extractLsb' 0 32 = d'.extractLsb' 0 32 := ⟨0x500000007, 7, by decide +kernel, by decide +kernel⟩

theorem witness_ChunkBytesAreLittleEndian :
    [0x78#8, 0x56#8, 0x34#8, 0x12#8].length = 4 * Variant.lanes .l1 := by decide

/-- Both sides of the boundary of R62: equal, in domain, out of domain. -/
theorem witness_SubtractionWrapsModulo : (7#32).toNat ≤ (7#32).toNat ∧ (6#32).toNat < (7#32).toNat ∧
    sub32 7#32 7#32 = 0 := by decide

theorem witness_OrLawsAndOrderFreedom : or32 0#32 0#32 = 0 ∧
    ∀ x : Word, x ∈ [1#32, 2#32, 1#32] ↔ x ∈ [2#32, 1#32] := by
  refine ⟨by decide, fun x => ?_⟩
  simp only [List.mem_cons, List.not_mem_nil, or_false]
  tauto

theorem witness_LeadingZerosAndHighestBit : (1#32) ≠ 0 ∧ (0x80000000#32) ≠ 0 := by decide

/-- Both ends of the range of `b` in R67 (f). -/
theorem witness_BitWidthCharacterisations : (0xFFFFFFFF#32) ≠ 0 ∧ (0xFFFFFFFF#32).toNat < 2 ^ 32 ∧
    1 ≤ 1 ∧ 1 ≤ 32 ∧ 32 ≤ 32 ∧ bw32 1#32 = 1 ∧ bw32 0xFFFFFFFF#32 = 32 := by decide

theorem witness_BitWidthIsMonotone : (255#32).toNat ≤ (256#32).toNat := by decide

/-- Registers of the maximum implementation whose lanes differ from the unit's and are as wide: 5 and 2
against 7 and 3, then a maximum and an OR of the same width. -/
theorem witness_MaximumImplementationIsIndistinguishable : ∃ m r : Regs .l4, m.acc ≠ r.acc ∧
    SameWidths m r :=
  ⟨⟨0xA, #v[5, 2, 4, 0x100], 1, 9, true⟩, ⟨0xA, #v[7, 3, 4, 0x1FF], 1, 9, true⟩, by decide, rfl, rfl, rfl, rfl,
    by decide⟩

theorem witness_MaxbitsCharacterisations : InDomain 1000 blockA9 ∧ blockA9[0].toNat ≤ (2000#32).toNat ∧
    blockA9.reverse.toList.Perm blockA9.toList ∧
    (∀ b ∈ blockA9.toList, (sub32 b 1000#32).toNat < 2 ^ 9) ∧
    ∀ b ∈ (Vector.replicate 128 7#32 : Block).toList, b = 7#32 :=
  ⟨witness_inDomain, by decide +kernel, by simp,
    forall_mem_of_all (by decide +kernel), forall_mem_of_all (by decide +kernel)⟩

/-- V-X8 and V-X4: a difference of at most, and of more than, `2^31`. -/
theorem witness_OutOfDomainWidth : (0#32).toNat < (0x80000000#32).toNat ∧
    (0x80000000#32).toNat - (0#32).toNat ≤ 2 ^ 31 ∧ 2 ^ 31 < (0xFFFFFFFF#32).toNat - (0#32).toNat := by decide

/-- Both branches of `ACC`, on this hardware and for `LANES = 4` at the boundary values of `CNT`. -/
theorem witness_AccAccumulatesDifferences : WellFormed Config.variant (.acc blockA9.toList) ∧
    freeState.regs.cnt.toNat < Config.variant.chunks ∧ ¬ fullState.regs.cnt.toNat < Config.variant.chunks ∧
    midBlock.cnt.toNat < Variant.chunks .l4 ∧ ¬ fullBlock.cnt.toNat < Variant.chunks .l4 := by decide +kernel

theorem witness_FullUnitDropsAcc : full fullState.regs = true ∧ full fullBlock = true ∧
    ∀ inp ∈ fillers, restarts .l4 inp = false := by decide +kernel

/-- Two runs that agree on lane 0 and differ elsewhere. -/
theorem witness_LanesAreIndependent : ∃ (r r' : Regs .l4) (d d' : BitVec (Variant.dw .l4)),
    r ≠ r' ∧ d ≠ d' ∧ r.cnt.toNat < Variant.chunks .l4 ∧ r'.cnt.toNat < Variant.chunks .l4 ∧
    r.off = r'.off ∧ r.acc[0] = r'.acc[0] ∧ lane .l4 d 0 = lane .l4 d' 0 :=
  ⟨midBlock, ⟨0xA, #v[0, 9, 9, 9], 31, 0, false⟩, operand .l4 (.acc [1, 2, 3, 4]),
    operand .l4 (.acc [1, 5, 6, 7]), by decide +kernel, by decide +kernel, by decide +kernel,
    by decide +kernel, by decide +kernel, by decide +kernel, by decide +kernel⟩

theorem witness_FinWritesBitWidth : hor (Regs.reset .l4).acc = 0 ∧ bw32 (hor fullBlock.acc) = 32 := by
  decide +kernel

/-- For each compared pair of runs of R17, two states that differ and agree on what may be read. -/
theorem witness_ReadAndWriteSets : ∃ (r r' : Regs .l4) (d d' : BitVec (Variant.dw .l4)),
    r ≠ r' ∧ d ≠ d' ∧ d.extractLsb' 0 32 = d'.extractLsb' 0 32 ∧ r.cnt.toNat < Variant.chunks .l4 ∧
    r.cnt = r'.cnt ∧ r.off = r'.off ∧ r.acc = r'.acc ∧ fullBlock.cnt.toNat = Variant.chunks .l4 :=
  ⟨midBlock, { midBlock with res := 5, rv := false }, operand .l4 (.acc [1, 2, 3, 4]),
    operand .l4 (.acc [1, 5, 6, 7]), by decide +kernel, by decide +kernel, by decide +kernel,
    by decide +kernel, by decide +kernel, by decide +kernel, by decide +kernel, by decide +kernel⟩

/-- Each register is changed by some step. -/
theorem witness_OnlyTheseStepsWriteEachRegister :
    (unitStep .l4 midBlock (present .l4 (.setoff 3))).off ≠ midBlock.off ∧
    (unitStep .l4 midBlock (present .l4 (.acc [9, 9, 9, 9]))).acc ≠ midBlock.acc ∧
    (unitStep .l4 midBlock (present .l4 (.acc [10, 10, 10, 10]))).cnt ≠ midBlock.cnt ∧
    (unitStep .l4 { midBlock with res := 0 } (present .l4 .fin)).res ≠ 0 ∧
    ({ midBlock with rv := false } : Regs .l4).rv = false ∧
    (unitStep .l4 { midBlock with rv := false } (present .l4 .fin)).rv = true ∧
    midBlock.rv = true ∧ (unitStep .l4 midBlock (present .l4 (.acc [9, 9, 9, 9]))).rv = false := by
  decide +kernel

/-- R87 clause by clause: equal elements (at the first slot), a saturated lane, room for two more `ACC`
(at the last pair of slots), and inputs without a restart. -/
theorem witness_AccCornerCases : midBlock.cnt.toNat < Variant.chunks .l4 ∧
    (∀ j < Variant.lanes .l4, lane .l4 (operand .l4 (.acc [10, 10, 10, 10])) j = midBlock.off) ∧
    fullBlock.acc[0] = 0xFFFFFFFF#32 ∧ (∀ inp ∈ fillers, restarts .l4 inp = false) ∧
    ({ midBlock with cnt := 30 } : Regs .l4).cnt.toNat + 1 < Variant.chunks .l4 ∧
    ∀ inp ∈ [Input.idle .l128], restarts .l128 inp = false := by decide +kernel

theorem witness_AccWithoutSetoff : (Regs.reset .l4).res = 0 ∧ 0 < Variant.lanes .l4 ∧
    midBlock.cnt.toNat < Variant.chunks .l4 := by decide +kernel

theorem witness_RunningWidthNeverDecreases : ∀ inp ∈ fillers, restarts .l4 inp = false := by decide +kernel

theorem witness_ResetLeavesZero : (⟨true, true, 0b11#2, 0⟩ : Input .l4).rst = true := by decide

/-- Each of the five step kinds is selected by some inputs. -/
theorem witness_StepRunsTheDecodedCommand :
    decodeInput Config.variant (present .l128 .nop) = .command .nop ∧
    decodeInput Config.variant (present .l128 (.setoff 7)) = .command (.setoff 7) ∧
    decodeInput Config.variant (present .l128 (.acc blockA9.toList)) = .command (.acc blockA9.toList) ∧
    decodeInput Config.variant (present .l128 .fin) = .command .fin ∧
    decodeInput Config.variant (resetInput .l128) = .reset := by decide +kernel

theorem witness_MachineStepIsTheStepFunction :
    decodeInput .l4 (present .l4 (.acc [1, 2, 3, 4])) = .command (.acc [1, 2, 3, 4]) ∧
    midBlock.cnt.toNat < Variant.chunks .l4 ∧ ¬ fullBlock.cnt.toNat < Variant.chunks .l4 ∧
    decodeInput .l4 (present .l4 (.setoff 3)) = .command (.setoff 3) ∧
    decodeInput .l4 (present .l4 .fin) = .command .fin ∧ decodeInput .l4 (Input.idle .l4) = .command .nop ∧
    decodeInput .l4 (resetInput .l4) = .reset := by decide +kernel

theorem witness_RunIsTheFoldOfTheStepFunction :
    performsA9.length ≤ (⟨Regs.reset Config.variant, performsA9⟩ : State).inputs.length := by decide

/-- A state of the invariant with `RV = 1` and a step from it. -/
theorem witness_EveryStepKeepsTheInvariant : RegsInv midBlock ∧
    Inv ⟨⟨0, Vector.replicate _ 0, 1, 0, true⟩, [present .l128 .fin]⟩ ∧
    (∃ t, step ⟨⟨0, Vector.replicate _ 0, 1, 0, true⟩, [present .l128 .fin]⟩ = .next t) ∧
    (resetInput .l4).rst = true :=
  ⟨⟨by decide +kernel, by decide +kernel, by decide +kernel⟩,
    ⟨by decide +kernel, by decide +kernel, by decide +kernel⟩, ⟨_, rfl⟩, rfl⟩

/-- Inputs with an accepted `ACC` and without a restart. -/
theorem witness_AccumulatorHoldsOrOfDifferences : (∀ inp ∈ fillers, restarts .l4 inp = false) ∧
    fillers.filterMap (accElements .l4) = [[10, 11, 14, 266]] := by decide +kernel

theorem witness_EarlyFinishCoversWhatWasAccepted : (∀ inp ∈ fillers, restarts .l4 inp = false) ∧
    ∀ es ∈ (fillers.filterMap (accElements .l4)).take (Variant.chunks .l4), ∀ e ∈ es,
      (sub32 e 10#32).toNat < 2 ^ 9 := by
  have hone : (fillers.filterMap (accElements .l4)).take (Variant.chunks .l4) = [[10, 11, 14, 266]] := by
    decide +kernel
  refine ⟨by decide +kernel, fun es hes => ?_⟩
  rw [hone, List.mem_singleton] at hes
  subst hes
  exact forall_mem_of_all (by decide)

theorem witness_TransactionPresentsTheBlock : Performs .l128 1000 blockA9 performsA9 ∧
    0 < Variant.chunks .l128 ∧ 127 < Variant.lanes .l128 := ⟨witness_performs, by decide, by decide⟩

theorem witness_TransactionComputesMaxbits : Performs .l128 1000 blockA9 performsA9 ∧
    0 < Variant.lanes .l128 := ⟨witness_performs, by decide⟩

theorem witness_MachinePerformsTransactions : Performs Config.variant 1000 blockA9 performsA9 :=
  witness_performs

theorem witness_VariantsAgree : Performs .l128 1000 blockA9 performsA9 ∧
    Performs .l64 1000 blockA9 performsA9Half := ⟨witness_performs, witness_performs_half⟩

theorem witness_HistoryIsForgotten : Performs .l128 1000 blockA9 performsA9 ∧
    midBlock ≠ { midBlock with off := 5 } ∧ midBlock.res = ({ midBlock with off := 5 } : Regs .l4).res :=
  ⟨witness_performs, by decide +kernel, rfl⟩

/-- Two arrangements of the elements of one block. -/
theorem witness_ElementOrderIsImmaterial : ∃ ins', (∀ x, x ∈ blockA9.toList ↔ x ∈ blockA9.reverse.toList) ∧
    blockA9 ≠ blockA9.reverse ∧ Performs .l128 1000 blockA9 performsA9 ∧
    Performs .l128 1000 blockA9.reverse ins' :=
  ⟨[present .l128 (.setoff 1000), present .l128 (.acc (chunk .l128 blockA9.reverse 0)), present .l128 .fin],
    by simp, by decide +kernel, witness_performs, present .l128 (.setoff 1000),
    [present .l128 (.acc (chunk .l128 blockA9.reverse 0))], present .l128 .fin, rfl, by decide +kernel,
    by decide +kernel, by decide +kernel⟩

theorem witness_InDomainResultIsTheNeededWidth : InDomain 1000 blockA9 ∧
    Performs .l128 1000 blockA9 performsA9 ∧ ∀ b ∈ blockA9.toList, b.toNat - (1000#32).toNat < 2 ^ 9 :=
  ⟨witness_inDomain, witness_performs, forall_mem_of_all (by decide +kernel)⟩

theorem witness_ResultIsMonotoneInEachElement : InDomain 1000 blockA9 ∧
    blockA9[0].toNat < (2000#32).toNat ∧ Performs .l128 1000 blockA9 performsA9 ∧
    Performs .l128 1000 (blockA9.set 0 2000#32) performsRaised :=
  ⟨witness_inDomain, by decide +kernel, witness_performs, witness_performs_raised⟩

theorem witness_FinishedTransactionIsHeld : Performs .l128 1000 blockA9 performsA9 ∧
    ∀ inp ∈ [present .l128 (.acc blockA9.toList), present .l128 .fin], restarts .l128 inp = false :=
  ⟨witness_performs, by decide +kernel⟩

/-! A pair of kernels that inverts, so that the hypothesis on kernels is met: differences as digits in
base `2^n`. The layout is the test's; the source gives none (R106). -/

/-- The number whose base `2^n` digits are `ds`, the first least significant. -/
def digits (n : Nat) : List Nat → Nat
  | [] => 0
  | d :: ds => d + 2 ^ n * digits n ds

theorem digits_lt (n : Nat) (ds : List Nat) (h : ∀ d ∈ ds, d < 2 ^ n) : digits n ds < 2 ^ (n * ds.length) := by
  induction ds with
  | nil => simp [digits]
  | cons d ds ih =>
    have hd := h d (by simp)
    have hds := ih fun x hx => h x (by simp [hx])
    rw [digits, List.length_cons, Nat.mul_succ, Nat.add_comm, Nat.pow_add]
    nlinarith [Nat.mul_le_mul_left (2 ^ n) (Nat.succ_le_of_lt hds)]

theorem digits_digit (n : Nat) (ds : List Nat) (h : ∀ d ∈ ds, d < 2 ^ n) (j : Nat) :
    digits n ds / 2 ^ (n * j) % 2 ^ n = ds.getD j 0 := by
  induction ds generalizing j with
  | nil => simp [digits]
  | cons d ds ih =>
    have hd := h d (by simp)
    cases j with
    | zero => simp [digits, Nat.mod_eq_of_lt hd]
    | succ j =>
      rw [Nat.mul_succ, Nat.add_comm, Nat.pow_add, ← Nat.div_div_eq_div_mul, digits,
        Nat.add_mul_div_left _ _ (by positivity), Nat.div_eq_of_lt hd, Nat.zero_add,
        ih (fun x hx => h x (by simp [hx])), List.getD_cons_succ]

def digitPack : PackKernel := fun o n B =>
  BitVec.ofNat (packedBits n) (digits n (B.toList.map fun b => b.toNat - o.toNat))

def digitUnpack : UnpackKernel := fun o n x =>
  Vector.ofFn fun i : Fin 128 => BitVec.ofNat 32 (o.toNat + x.toNat / 2 ^ (n * i.val) % 2 ^ n)

theorem digitUnpack_inverts_digitPack : Inverts digitPack digitUnpack := by
  intro o n B hdom hfit
  have hdigits : ∀ d ∈ B.toList.map (fun b => b.toNat - o.toNat), d < 2 ^ n := by
    simpa [FitsWidth] using hfit
  have hlt := digits_lt n _ hdigits
  rw [List.length_map, Vector.length_toList] at hlt
  apply Vector.ext
  intro i hi
  have hle := hdom B[i] (by simp)
  have hb := B[i].isLt
  apply BitVec.eq_of_toNat_eq
  simp only [digitUnpack, digitPack, Vector.getElem_ofFn, BitVec.toNat_ofNat, packedBits,
    Nat.mod_eq_of_lt hlt, digits_digit n _ hdigits]
  have hget : (B.toList.map fun b => b.toNat - o.toNat).getD i 0 = B[i].toNat - o.toNat := by
    simp [hi]
  rw [hget]
  omega

/-- In-domain inputs, kernels that invert, and the smallest and the largest packed size. -/
theorem witness_ReturnedWidthMakesPackingLossless : InDomain 1000 blockA9 ∧
    Performs .l128 1000 blockA9 performsA9 ∧ Inverts digitPack digitUnpack ∧
    (∀ b ∈ (Vector.replicate 128 7#32 : Block).toList, b = 7#32) ∧
    ∃ b ∈ (Vector.replicate 128 0x80000000#32 : Block).toList, 2 ^ 31 ≤ b.toNat - (0#32).toNat :=
  ⟨witness_inDomain, witness_performs, digitUnpack_inverts_digitPack, forall_mem_of_all (by decide +kernel),
    0x80000000#32, by simp, by decide⟩

/-- Numbers and operand counts on both sides of what the syntax allows: for `setoff`, for runs in range
with a right and a wrong count (for `acc` and for `maxbits`), for an element and a run length out of range,
and lines that assemble and do not. -/
theorem witness_AssembledLinesDecode : 2 ^ 32 - 1 < 2 ^ 32 ∧ 2 ^ 32 ≥ 2 ^ 32 ∧
    (∀ p ∈ [(2 ^ 32 - 1, 4)], p.1 < 2 ^ 32 ∧ p.2 < 2 ^ 32) ∧
    (([(5, 4)] : List (Nat × Nat)).flatMap fun p => List.replicate p.2 (BitVec.ofNat 32 p.1)).length =
      Variant.lanes .l4 ∧
    (([(5, 3)] : List (Nat × Nat)).flatMap fun p => List.replicate p.2 (BitVec.ofNat 32 p.1)).length ≠
      Variant.lanes .l4 ∧
    (([(7, 127), (8, 1)] : List (Nat × Nat)).flatMap fun p =>
      List.replicate p.2 (BitVec.ofNat 32 p.1)).toArray.size = Config.blockLength ∧
    (([(7, 127)] : List (Nat × Nat)).flatMap fun p =>
      List.replicate p.2 (BitVec.ofNat 32 p.1)).length ≠ Config.blockLength ∧
    (∃ p ∈ [(1, 3), (2 ^ 32, 1)], 2 ^ 32 ≤ p.1 ∨ 2 ^ 32 ≤ p.2) ∧
    (∃ p ∈ [(1, 2 ^ 32)], 2 ^ 32 ≤ p.1 ∨ 2 ^ 32 ≤ p.2) ∧
    assembleLine .l4 .nop = some [present .l4 .nop] ∧ assemble .l4 [] = some [] ∧
    assembleLine .l4 (.setoff (2 ^ 32)) = none :=
  ⟨by decide, by decide, by decide, by decide, by decide, by decide +kernel, by decide +kernel,
    ⟨(2 ^ 32, 1), by simp, .inl le_rfl⟩, ⟨(1, 2 ^ 32), by simp, .inr le_rfl⟩, rfl, rfl, by decide⟩

end Sys2Proof.Tests
end

/-! # The derived parameters (00_scope.md, section 5)

`LANES = 2 ^ levels` divides the block length `2 ^ 7`, so `CHUNKS` and `CW` have closed forms in the number
of levels; the rows of R8's table are these forms at the eight values of `levels`. -/
section
namespace Sys2Proof

theorem Variant.levels_le (v : Variant) : v.levels ≤ 7 := by cases v <;> decide

theorem Variant.chunks_eq_two_pow (v : Variant) : v.chunks = 2 ^ (7 - v.levels) :=
  Nat.pow_div v.levels_le Nat.two_pos

theorem Variant.cw_eq_sub_levels (v : Variant) : v.cw = 8 - v.levels := by
  have hle := v.levels_le
  rw [Variant.cw, v.chunks_eq_two_pow, Nat.log2_two_pow]
  omega

end Sys2Proof

namespace Sys2Proof.Machine

/-- Settles O1: the formulas are the definitions, and the table is their closed forms row by row. -/
theorem derivedParametersMatchTable : Obligations.DerivedParametersMatchTable := by
  constructor
  · intro v
    exact ⟨rfl, v.dw_eq, rfl⟩
  · simp [Variant.lanes, Variant.chunks_eq_two_pow, Variant.dw_eq, Variant.cw_eq_sub_levels,
      Variant.levels]

end Sys2Proof.Machine
end

/-! # State and outputs (10_state.md)

What one edge does to the registers, written once per row of R17 over inputs given by their ports, and what
the machine's step does to its state; the claims about the registers, the ports, the read and write sets and
the invariant of R26 follow from these. -/
section
namespace Sys2Proof.Machine

section Rules
variable {v : Variant}

/-! ## One edge by the sampled ports (R17, R56) -/

theorem unitStep_of_rst (r : Regs v) (inp : Input v) (h : inp.rst = true) :
    unitStep v r inp = Regs.reset v := by
  rw [unitStep, decodeInput_reset inp h]

theorem unitStep_of_not_valid (r : Regs v) (op : BitVec 2) (d : BitVec v.dw) :
    unitStep v r ⟨false, false, op, d⟩ = r := rfl

theorem unitStep_nop_port (r : Regs v) (d : BitVec v.dw) :
    unitStep v r ⟨false, true, 0b00#2, d⟩ = r := rfl

theorem unitStep_setoff_port (r : Regs v) (d : BitVec v.dw) :
    unitStep v r ⟨false, true, 0b01#2, d⟩ = startBlock (d.extractLsb' 0 32) r := rfl

theorem unitStep_acc_port (r : Regs v) (d : BitVec v.dw) :
    unitStep v r ⟨false, true, 0b10#2, d⟩ = accumulate (laneOperand v (lanesOf v d)) r := rfl

theorem unitStep_fin_port (r : Regs v) (d : BitVec v.dw) :
    unitStep v r ⟨false, true, 0b11#2, d⟩ = finish r := rfl

/-! ## What reset leaves, and what `SETOFF` forgets -/

/-- The reset values port by port (R27): `FULL` is 0 because `CHUNKS` is at least 1. -/
theorem outputs_reset (v : Variant) : outputs (Regs.reset v) = ⟨0, false, 0, false⟩ := by
  have hfull : full (Regs.reset v) = false := by
    rw [Bool.eq_false_iff, ne_eq, full_iff, Regs.reset_cnt]
    simpa using v.chunks_pos.ne
  simp [outputs, hfull]

/-- `SETOFF` reads no register: from any two states it differs in the `RES` it keeps only (R78). -/
theorem startBlock_with_res (o : Word) (r r' : Regs v) (x : BitVec 6) :
    { startBlock o r with res := x } = { startBlock o r' with res := x } := rfl

/-! ## The invariant of R26, operation by operation -/

theorem regsInv_reset (v : Variant) : RegsInv (Regs.reset v) where
  cnt_le := by simp
  res_le := by simp
  current := by simp

theorem regsInv_startBlock {r : Regs v} (h : RegsInv r) (o : Word) : RegsInv (startBlock o r) where
  cnt_le := by simp
  res_le := h.res_le
  current := by simp

/-- An accepted `ACC` had room in `CNT` and leaves `RV = 0`; a dropped one changes nothing. -/
theorem regsInv_accumulate {r : Regs v} (h : RegsInv r) (e : Vector Word v.lanes) :
    RegsInv (accumulate e r) := by
  rcases Nat.lt_or_ge r.cnt.toNat v.chunks with hroom | hfull
  · rw [accumulate_accepted e r hroom]
    exact ⟨(cnt_succ_toNat r.cnt hroom).trans_le hroom, h.res_le, by simp⟩
  · rwa [accumulate_dropped e r (Nat.not_lt.mpr hfull)]

theorem regsInv_finish {r : Regs v} (h : RegsInv r) : RegsInv (finish r) where
  cnt_le := h.cnt_le
  res_le := by simpa only [finish_res, toNat_ofNat_bw32] using bw32_le _
  current _ := toNat_ofNat_bw32 _

theorem regsInv_unitStep {r : Regs v} (h : RegsInv r) (inp : Input v) : RegsInv (unitStep v r inp) := by
  rcases unitStep_cases r inp with
    ⟨-, hstep⟩ | ⟨-, hstep⟩ | ⟨o, -, hstep⟩ | ⟨es, -, -, hstep⟩ | ⟨-, hstep⟩ <;> rw [hstep]
  · exact regsInv_reset v
  · exact h
  · exact regsInv_startBlock h o
  · exact regsInv_accumulate h _
  · exact regsInv_finish h

theorem regsInv_unitRun {r : Regs v} (h : RegsInv r) (ins : List (Input v)) :
    RegsInv (unitRun v r ins) := by
  induction ins generalizing r with
  | nil => exact h
  | cons inp ins ih => exact ih (regsInv_unitStep h inp)

/-! ## Which edges write a register (R14 to R19) -/

/-- What is sampled starts the block afresh or is an `ACC` for which there is room. -/
def WritesBlock (r : Regs v) (inp : Input v) : Prop :=
  decodeInput v inp = .reset ∨ (∃ o, decodeInput v inp = .command (.setoff o)) ∨
    ∃ es, decodeInput v inp = .command (.acc es) ∧ r.cnt.toNat < v.chunks

/-- Every other edge changes nothing or is a `FIN`. -/
theorem unitStep_of_not_writesBlock {r : Regs v} {inp : Input v} (h : ¬ WritesBlock r inp) :
    unitStep v r inp = r ∨ (decodeInput v inp = .command .fin ∧ unitStep v r inp = finish r) := by
  rcases unitStep_cases r inp with
    ⟨hdec, -⟩ | ⟨-, hstep⟩ | ⟨o, hdec, -⟩ | ⟨es, hdec, -, hstep⟩ | hfin
  · exact absurd (.inl hdec) h
  · exact .inl hstep
  · exact absurd (.inr (.inl ⟨o, hdec⟩)) h
  · have hfull : ¬ r.cnt.toNat < v.chunks := fun hroom => h (.inr (.inr ⟨es, hdec, hroom⟩))
    exact .inl (hstep.trans (accumulate_dropped _ r hfull))
  · exact .inr hfin

theorem writesBlock_of_acc_or_cnt_ne {r : Regs v} {inp : Input v}
    (h : (unitStep v r inp).acc ≠ r.acc ∨ (unitStep v r inp).cnt ≠ r.cnt) : WritesBlock r inp := by
  by_contra hnot
  rcases unitStep_of_not_writesBlock hnot with hstep | ⟨-, hstep⟩ <;> simp [hstep] at h

theorem writesBlock_of_rv_cleared {r : Regs v} {inp : Input v} (hset : r.rv = true)
    (h : (unitStep v r inp).rv = false) : WritesBlock r inp := by
  by_contra hnot
  rcases unitStep_of_not_writesBlock hnot with hstep | ⟨-, hstep⟩ <;> simp [hstep, hset] at h

theorem decode_of_off_ne {r : Regs v} {inp : Input v} (h : (unitStep v r inp).off ≠ r.off) :
    decodeInput v inp = .reset ∨ ∃ o, decodeInput v inp = .command (.setoff o) := by
  rcases unitStep_cases r inp with
    ⟨hdec, -⟩ | ⟨-, hstep⟩ | ⟨o, hdec, -⟩ | ⟨es, -, -, hstep⟩ | ⟨-, hstep⟩
  · exact .inl hdec
  · exact absurd (by rw [hstep]) h
  · exact .inr ⟨o, hdec⟩
  · exact absurd (by rw [hstep, accumulate_off]) h
  · exact absurd (by rw [hstep, finish_off]) h

theorem decode_of_res_ne {r : Regs v} {inp : Input v} (h : (unitStep v r inp).res ≠ r.res) :
    decodeInput v inp = .reset ∨ decodeInput v inp = .command .fin := by
  rcases unitStep_cases r inp with
    ⟨hdec, -⟩ | ⟨-, hstep⟩ | ⟨o, -, hstep⟩ | ⟨es, -, -, hstep⟩ | ⟨hdec, -⟩
  · exact .inl hdec
  · exact absurd (by rw [hstep]) h
  · exact absurd (by rw [hstep, startBlock_res]) h
  · exact absurd (by rw [hstep, accumulate_res]) h
  · exact .inr hdec

/-- No `ACC` sets `RV`: an accepted one clears it, a dropped one leaves it. -/
theorem accumulate_rv_of_not_rv (e : Vector Word v.lanes) {r : Regs v} (h : r.rv = false) :
    (accumulate e r).rv = false := by
  rcases Nat.lt_or_ge r.cnt.toNat v.chunks with hroom | hfull
  · rw [accumulate_accepted e r hroom]
  · rwa [accumulate_dropped e r (Nat.not_lt.mpr hfull)]

theorem decode_of_rv_set {r : Regs v} {inp : Input v} (hclear : r.rv = false)
    (h : (unitStep v r inp).rv = true) : decodeInput v inp = .command .fin := by
  rcases unitStep_cases r inp with
    ⟨-, hstep⟩ | ⟨-, hstep⟩ | ⟨o, -, hstep⟩ | ⟨es, -, -, hstep⟩ | ⟨hdec, -⟩
  · simp [hstep] at h
  · simp [hstep, hclear] at h
  · simp [hstep] at h
  · simp [hstep, accumulate_rv_of_not_rv _ hclear] at h
  · exact hdec

end Rules

/-! ## One step of the machine -/

/-- A step is one edge of the unit on the registers, and takes the sampled inputs off the schedule (R95). -/
theorem step_eq (s : State) :
    step s = .next ((afterSample s).withRegs (unitStep Config.variant s.regs (sampledInput s))) := by
  rcases decodeInput_cases (sampledInput s) with ⟨-, h⟩ | ⟨-, h⟩ | ⟨-, h⟩ | ⟨-, h⟩ | ⟨-, h⟩ <;>
    rw [step, unitStep, h] <;> rfl

theorem regs_of_step {s t : State} (h : step s = .next t) :
    t.regs = unitStep Config.variant s.regs (sampledInput s) := by
  rw [step_eq, Host.Outcome.next.injEq] at h
  rw [← h, State.withRegs_regs]

/-! ## The claims -/

/-- Settles O36: every operation keeps the invariant, and a reset step establishes it. -/
theorem everyStepKeepsTheInvariant : Obligations.EveryStepKeepsTheInvariant := by
  refine ⟨fun v r inp h => regsInv_unitStep h inp, fun s t hs hstep => ?_, fun v r rst ins hrst => ?_⟩
  · rw [Inv, regs_of_step hstep]
    exact regsInv_unitStep hs _
  · rw [unitRun_cons, unitStep_of_rst r rst hrst]
    exact regsInv_unitRun (regsInv_reset v) ins

/-- Settles O30: a reset step writes the reset values, whose outputs are zero as `CHUNKS ≥ 1`. -/
theorem resetLeavesZero : Obligations.ResetLeavesZero := by
  refine ⟨rfl, outputs_reset Config.variant, fun v r inp hrst => ?_⟩
  rw [unitStep_of_rst r inp hrst]
  exact ⟨rfl, outputs_reset v⟩

/-- Settles O35: no port reads `OFF` or `ACC`. -/
theorem outputsAreFunctionsOfTheState : Obligations.OutputsAreFunctionsOfTheState :=
  fun _ r => ⟨outputs_res r, outputs_resValid r, outputs_cnt r, full_iff r, fun _ _ => rfl⟩

/-- Settles O24, row by row of the table of R17. -/
theorem readAndWriteSets : Obligations.ReadAndWriteSets := by
  intro v r r' d d'
  refine ⟨fun valid op => unitStep_of_rst r _ rfl, ⟨unitStep_nop_port r d, fun op =>
    unitStep_of_not_valid r op d⟩, ?setoff, ?accepted, ?dropped, ?fin⟩
  case setoff =>
    simp only [unitStep_setoff_port]
    refine ⟨startBlock_acc r _, startBlock_cnt r _, startBlock_rv r _, startBlock_res r _, fun hoff => ?_⟩
    rw [hoff]
    exact startBlock_with_res _ r r' 0
  case accepted =>
    intro hroom
    refine ⟨accumulate_off _ r, accumulate_res _ r, ?rv, fun hcnt => ?reads⟩
    case rv => rw [unitStep_acc_port, accumulate_accepted _ r hroom]
    case reads =>
      have hroom' : r'.cnt.toNat < v.chunks := hcnt ▸ hroom
      simp only [unitStep_acc_port, accumulate_accepted _ r hroom, accumulate_accepted _ r' hroom']
      exact ⟨by rw [hcnt], fun hoff hacc => by rw [hoff, hacc]⟩
  case dropped =>
    intro hfull
    exact accumulate_dropped _ r hfull.not_lt
  case fin =>
    simp only [unitStep_fin_port]
    refine ⟨finish_off r, finish_acc r, finish_cnt r, finish_rv r, fun hacc => ?_⟩
    rw [finish_res, finish_res, hacc]

/-- Settles O25, register by register. -/
theorem onlyTheseStepsWriteEachRegister : Obligations.OnlyTheseStepsWriteEachRegister := fun _ _ _ =>
  ⟨decode_of_off_ne, writesBlock_of_acc_or_cnt_ne, decode_of_res_ne, decode_of_rv_set,
    writesBlock_of_rv_cleared⟩

end Sys2Proof.Machine
end

/-! # Memory and the transaction (20_memory.md)

The block in the host's memory and how it reaches the port: the bytes of a chunk as one data word (R36), the
chunks of a block as the commands of a transaction (R35, R58, R99), and the order in which edges take effect
(R42). -/
section
namespace Sys2Proof

/-- Four consecutive bytes of a number are its 32 bits at that place. -/
theorem four_bytes_eq_mod_word (x : Nat) :
    x % 2 ^ 8 + 2 ^ 8 * (x / 2 ^ 8 % 2 ^ 8) + 2 ^ 16 * (x / 2 ^ 16 % 2 ^ 8) +
      2 ^ 24 * (x / 2 ^ 24 % 2 ^ 8) = x % 2 ^ 32 := by
  omega

/-- Decoding the lanes of a packed data word gives the elements back (R51, R59). -/
theorem lanesOf_operand_acc {v : Variant} {es : List Word} (hlen : es.length = v.lanes) :
    lanesOf v (operand v (.acc es)) = es := by
  apply List.ext_getElem ((length_lanesOf _).trans hlen.symm)
  intro j hj _
  rw [getElem_lanesOf, lane_operand_acc es hlen j (length_lanesOf (v := v) _ ▸ hj)]

/-- A well-formed command presented at the ports is the one decoded from them. -/
theorem decodeInput_present_of_wellFormed {v : Variant} {i : Instr} (h : WellFormed v i) :
    decodeInput v (present v i) = .command i := by
  rw [decodeInput_present]
  cases i with
  | nop => rfl
  | setoff off => rw [opcode, decodeCommand_setoff, offsetField_operand_setoff]
  | acc es =>
    have hlen : es.length = v.lanes := by simpa [WellFormed, wellFormed] using h
    rw [opcode, decodeCommand_acc, lanesOf_operand_acc hlen]
  | fin => rfl

end Sys2Proof

namespace Sys2Proof.Machine

section Chunks
variable {v : Variant}

/-! ## The bytes of a chunk (R36) -/

/-- `DW` bits hold the `4 * LANES` bytes of a chunk without loss. -/
theorem dataOfBytes_toNat {m : List Byte} (hlen : m.length = 4 * v.lanes) :
    (dataOfBytes v m).toNat = littleEndian m := by
  have hwidth : 8 * m.length = v.dw := by rw [hlen, v.dw_eq]; omega
  rw [dataOfBytes, BitVec.toNat_ofNat, Nat.mod_eq_of_lt (hwidth ▸ littleEndian_lt m)]

theorem dataOfBytes_byte {m : List Byte} (hlen : m.length = 4 * v.lanes) (t : Nat) :
    (dataOfBytes v m).extractLsb' (8 * t) 8 = m.getD t 0 := by
  apply BitVec.eq_of_toNat_eq
  rw [BitVec.extractLsb'_toNat, dataOfBytes_toNat hlen, Nat.shiftRight_eq_div_pow, littleEndian_digit]

/-- Byte `i` of the word that starts at byte `4 * j` is byte `4 * j + i`. -/
theorem littleEndian_word_byte (m : List Byte) (j i : Nat) :
    littleEndian m / 2 ^ (32 * j) / 2 ^ (8 * i) % 2 ^ 8 = (m.getD (4 * j + i) 0).toNat := by
  have hplace : 32 * j + 8 * i = 8 * (4 * j + i) := by omega
  rw [Nat.div_div_eq_div_mul, ← Nat.pow_add, hplace, littleEndian_digit]

/-! ## The chunks of a block (R35) -/

/-- The first `m` chunks are the first `m * LANES` elements of the block. -/
theorem flatMap_chunk_range (B : Block) (m : Nat) :
    (List.range m).flatMap (chunk v B) = B.toList.take (m * v.lanes) := by
  induction m with
  | zero => simp
  | succ m ih =>
    rw [List.range_succ, List.flatMap_append, ih, List.flatMap_singleton, chunk, ← List.take_add,
      Nat.succ_mul]

theorem flatMap_chunk_eq_block (v : Variant) (B : Block) :
    (List.range v.chunks).flatMap (chunk v B) = B.toList := by
  rw [flatMap_chunk_range, v.chunks_mul_lanes, List.take_of_length_le B.length_toList.le]

/-- Every chunk of the block is whole, because `LANES` divides the block length. -/
theorem length_chunk (B : Block) {k : Nat} (hk : k < v.chunks) : (chunk v B k).length = v.lanes := by
  have hend : (k + 1) * v.lanes ≤ Config.blockLength :=
    v.chunks_mul_lanes ▸ Nat.mul_le_mul_right v.lanes hk
  rw [Nat.succ_mul] at hend
  rw [chunk, List.length_take, List.length_drop, Vector.length_toList]
  omega

/-! ## Presenting the chunks in order (R97, R99) -/

theorem length_transaction (v : Variant) (o : Word) (B : Block) :
    (transaction v o B).length = v.chunks + 2 := by simp [transaction]

theorem presentsChunks_nil_iff (B : Block) (n m : Nat) : presentsChunks v B n m [] = true ↔ m = 0 := by
  cases m <;> simp [presentsChunks]

/-- An edge is a filler or carries the next chunk. -/
theorem presentsChunks_cons_iff (B : Block) (n m : Nat) (inp : Input v) (rest : List (Input v)) :
    presentsChunks v B n m (inp :: rest) = true ↔
      (isFiller v n inp = true ∧ presentsChunks v B n m rest = true) ∨
      ∃ k, m = k + 1 ∧ decodeInput v inp = .command (.acc (chunk v B n)) ∧
        presentsChunks v B (n + 1) k rest = true := by
  cases m <;> simp [presentsChunks]

/-- Each chunk takes an edge of its own. -/
theorem le_length_of_presentsChunks {B : Block} {n m : Nat} {ins : List (Input v)}
    (h : presentsChunks v B n m ins = true) : m ≤ ins.length := by
  induction ins generalizing n m with
  | nil => exact ((presentsChunks_nil_iff B n m).mp h).le
  | cons inp rest ih =>
    rcases (presentsChunks_cons_iff B n m inp rest).mp h with ⟨-, hrest⟩ | ⟨k, rfl, -, hrest⟩
    · exact (ih hrest).trans (Nat.le_succ _)
    · exact Nat.succ_le_succ (ih hrest)

/-- The chunks from the `n`-th on, presented one edge after the other without fillers. -/
theorem presentsChunks_range' (B : Block) {n m : Nat} (h : n + m ≤ v.chunks) :
    presentsChunks v B n m ((List.range' n m).map fun k => present v (.acc (chunk v B k))) = true := by
  induction m generalizing n with
  | zero => rfl
  | succ m ih =>
    have hwf : WellFormed v (.acc (chunk v B n)) := by
      simpa [WellFormed, wellFormed] using length_chunk B (by omega : n < v.chunks)
    rw [List.range'_succ, List.map_cons, presentsChunks_cons_iff]
    exact .inr ⟨m, rfl, decodeInput_present_of_wellFormed hwf, ih (by omega)⟩

theorem performs_transaction (v : Variant) (o : Word) (B : Block) :
    Performs v o B ((transaction v o B).map (present v)) := by
  refine ⟨present v (.setoff o), (List.range v.chunks).map fun k => present v (.acc (chunk v B k)),
    present v .fin, by simp [transaction], decodeInput_present_of_wellFormed rfl, ?_,
    decodeInput_present_of_wellFormed rfl⟩
  rw [List.range_eq_range']
  exact presentsChunks_range' B (Nat.zero_add _).le

theorem le_length_of_performs {o : Word} {B : Block} {ins : List (Input v)}
    (h : Performs v o B ins) : v.chunks + 2 ≤ ins.length := by
  obtain ⟨first, middle, last, rfl, -, hmiddle, -⟩ := h
  have hchunks := le_length_of_presentsChunks hmiddle
  simpa using hchunks

end Chunks

/-! ## The order of the edges (R42) -/

/-- A run of one step more, whose first step does not stop, is the run from the state after it. -/
theorem run_succ_of_next (M : Host.Core) {s t : M.State} (h : M.step s = .next t) (n : Nat) :
    M.run (n + 1) s = M.run n t := by
  simp only [Host.Core.run, h]

/-- No step of the machine stops (R95). -/
theorem run_succ (n : Nat) (s : State) :
    (core.run (n + 1) s : Host.Outcome State Fault Refusal) =
      core.run n ((afterSample s).withRegs (unitStep Config.variant s.regs (sampledInput s))) :=
  run_succ_of_next core (step_eq s) n

/-! ## The claims -/

/-- Settles O7: a lane is four consecutive bytes of the number the bytes stand for. -/
theorem chunkBytesAreLittleEndian : Obligations.ChunkBytesAreLittleEndian := by
  refine fun v m hlen => ⟨fun t _ => dataOfBytes_byte hlen t, fun j _ => ?_⟩
  rw [lane_toNat, dataOfBytes_toNat hlen, ← four_bytes_eq_mod_word]
  have hbyte := littleEndian_word_byte m j
  rw [← hbyte 1, ← hbyte 2, ← hbyte 3]
  simpa using hbyte 0

/-- Settles O34, by induction on the number of edges: each takes one input off the schedule. -/
theorem runIsTheFoldOfTheStepFunction : Obligations.RunIsTheFoldOfTheStepFunction := by
  intro n
  induction n with
  | zero => exact fun _ _ => rfl
  | succ n ih =>
    rintro ⟨r, ins⟩ hlen
    cases ins with
    | nil => exact absurd hlen (Nat.not_succ_le_zero n)
    | cons inp rest => exact (run_succ n _).trans (ih _ (Nat.le_of_succ_le_succ hlen))

/-- Settles O41: the chunks partition the block, and each takes one edge between `SETOFF` and `FIN`. -/
theorem transactionPresentsTheBlock : Obligations.TransactionPresentsTheBlock := fun v o B =>
  ⟨performs_transaction v o B, length_transaction v o B,
    fun k hk => ⟨length_chunk B hk, fun j hj => getElem?_chunk v B k j hj⟩,
    flatMap_chunk_eq_block v B, fun _ => le_length_of_performs⟩

end Sys2Proof.Machine
end

/-! # Decoding and the assembly lines (30_encoding.md)

Which step the sampled ports select (R56) and which of their bits it reads (R50, R52, R53); what a line of
assembly stands for: one equation per kind of line, by whether its numbers are in range and its operands of
the right count (R57, R58), and that the inputs presenting well-formed commands decode to them. -/
section
namespace Sys2Proof.Machine

section Lines
variable {v : Variant}

/-! ## Presented commands decode to themselves (R47, R57) -/

/-- The operand of `SETOFF` leaves the bits above the offset field 0 (R57). -/
theorem getLsbD_operand_setoff_of_ge (off : Word) {k : Nat} (hk : 32 ≤ k) :
    (operand v (.setoff off)).getLsbD k = false := by
  rw [operand, BitVec.getLsbD_setWidth, BitVec.getLsbD_of_ge off k hk, Bool.and_false]

theorem wellFormed_acc_iff (es : List Word) : WellFormed v (.acc es) ↔ es.length = v.lanes := by
  simp [WellFormed, wellFormed]

/-- Every chunk of the block is whole, so a transaction holds commands only. -/
theorem wellFormed_of_mem_transaction {o : Word} {B : Block} {i : Instr}
    (h : i ∈ transaction v o B) : WellFormed v i := by
  simp only [transaction, List.cons_append, List.mem_cons, List.mem_append, List.mem_map,
    List.mem_range, List.not_mem_nil, or_false] at h
  rcases h with rfl | ⟨k, hk, rfl⟩ | rfl
  · rfl
  · exact (wellFormed_acc_iff _).mpr (length_chunk B hk)
  · rfl

theorem map_decodeInput_present {is : List Instr} (h : ∀ i ∈ is, WellFormed v i) :
    (is.map (present v)).map (decodeInput v) = is.map StepKind.command := by
  rw [List.map_map]
  exact List.map_congr_left fun i hi => decodeInput_present_of_wellFormed (h i hi)

/-! ## Run lengths (R57) -/

/-- The lanes that runs with all numbers in range stand for. -/
def runLanes (runs : List (Nat × Nat)) : List Word :=
  runs.flatMap fun p => List.replicate p.2 (BitVec.ofNat 32 p.1)

theorem expandRuns_of_lt {runs : List (Nat × Nat)} (h : ∀ p ∈ runs, p.1 < 2 ^ 32 ∧ p.2 < 2 ^ 32) :
    expandRuns runs = some (runLanes runs) := by
  induction runs with
  | nil => rfl
  | cons p rest ih =>
    obtain ⟨⟨helem, hcount⟩, hrest⟩ := List.forall_mem_cons.mp h
    exact expandRuns_cons helem hcount (ih hrest)

theorem expandRuns_of_ge {runs : List (Nat × Nat)} (h : ∃ p ∈ runs, 2 ^ 32 ≤ p.1 ∨ 2 ^ 32 ≤ p.2) :
    expandRuns runs = none := by
  induction runs with
  | nil => simp at h
  | cons p rest ih =>
    obtain ⟨q, hq, hge⟩ := h
    rcases List.mem_cons.mp hq with rfl | hrest
    · exact expandRuns_cons_none (hge.imp_right .inl)
    · exact expandRuns_cons_none (.inr (.inr (ih ⟨q, hrest, hge⟩)))

/-! ## What each line assembles to (R57, R58) -/

theorem assembleLine_setoff_of_lt {n : Nat} (h : n < 2 ^ 32) :
    assembleLine v (.setoff n) = some [present v (.setoff (BitVec.ofNat 32 n))] := by
  rw [assembleLine, assembleNumber_of_lt h, Option.map_some]

theorem assembleLine_setoff_of_ge {n : Nat} (h : 2 ^ 32 ≤ n) : assembleLine v (.setoff n) = none := by
  rw [assembleLine, assembleNumber_of_ge h, Option.map_none]

theorem assembleLine_idle_of_lt {n : Nat} (h : n < 2 ^ 32) :
    assembleLine v (.idle n) = some (List.replicate n (Input.idle v)) := by
  rw [assembleLine, assembleNumber_of_lt h, Option.map_some]

theorem assembleLine_idle_of_ge {n : Nat} (h : 2 ^ 32 ≤ n) : assembleLine v (.idle n) = none := by
  rw [assembleLine, assembleNumber_of_ge h, Option.map_none]

section Runs
variable {runs : List (Nat × Nat)} {ws : List Word}

theorem assembleLine_acc (hruns : expandRuns runs = some ws) (hlen : ws.length = v.lanes) :
    assembleLine v (.acc runs) = some [present v (.acc ws)] := by
  simp [assembleLine, expandExactly, hruns, hlen]

theorem assembleLine_acc_of_length_ne (hruns : expandRuns runs = some ws) (hlen : ws.length ≠ v.lanes) :
    assembleLine v (.acc runs) = none := by
  simp [assembleLine, expandExactly, hruns, hlen]

theorem assembleLine_acc_of_none (hruns : expandRuns runs = none) : assembleLine v (.acc runs) = none := by
  simp [assembleLine, expandExactly, hruns]

theorem assembleLine_maxbits {o : Nat} (ho : o < 2 ^ 32) (hruns : expandRuns runs = some ws)
    (hsize : ws.toArray.size = Config.blockLength) :
    assembleLine v (.maxbits o runs) =
      some ((transaction v (BitVec.ofNat 32 o) ⟨ws.toArray, hsize⟩).map (present v)) := by
  rw [assembleLine, assembleNumber_of_lt ho, hruns]
  exact congrArg (Option.map _) (dif_pos hsize)

theorem assembleLine_maxbits_of_length_ne (o : Nat) (hruns : expandRuns runs = some ws)
    (hlen : ws.length ≠ Config.blockLength) : assembleLine v (.maxbits o runs) = none := by
  rw [assembleLine, hruns]
  cases assembleNumber o with
  | none => rfl
  | some w => exact congrArg (Option.map _) (dif_neg hlen)

theorem assembleLine_maxbits_of_none (o : Nat) (hruns : expandRuns runs = none) :
    assembleLine v (.maxbits o runs) = none := by
  rw [assembleLine, hruns]
  cases assembleNumber o <;> rfl

theorem assembleLine_maxbits_of_ge {o : Nat} (ho : 2 ^ 32 ≤ o) (runs : List (Nat × Nat)) :
    assembleLine v (.maxbits o runs) = none := by
  rw [assembleLine, assembleNumber_of_ge ho]

end Runs

/-! ## Consecutive lines and idle edges (R53, R57) -/

theorem assemble_cons {l : Line} {ls : List Line} {a b : List (Input v)}
    (hl : assembleLine v l = some a) (hls : assemble v ls = some b) :
    assemble v (l :: ls) = some (a ++ b) := by
  rw [assemble, hl, hls]

theorem assemble_cons_none {l : Line} {ls : List Line}
    (h : assembleLine v l = none ∨ assemble v ls = none) : assemble v (l :: ls) = none := by
  rcases h with hl | hls
  · rw [assemble, hl]
  · rw [assemble, hls]
    cases assembleLine v l <;> rfl

/-- Edges at which no command is presented change nothing. -/
theorem unitRun_of_not_valid {ins : List (Input v)}
    (h : ∀ inp ∈ ins, inp.rst = false ∧ inp.cmdValid = false) (r : Regs v) : unitRun v r ins = r := by
  induction ins with
  | nil => rfl
  | cons inp rest ih =>
    obtain ⟨⟨hrst, hvalid⟩, hrest⟩ := List.forall_mem_cons.mp h
    rw [unitRun_cons, unitStep, decodeInput_idle inp hrst hvalid]
    exact ih hrest

end Lines

/-! ## The claims -/

/-- Settles O3: reset, then `cmd_valid`, then the four rows of the opcode map. -/
theorem decodeSelectsStepKind : Obligations.DecodeSelectsStepKind := by
  intro v d
  have hop (op : BitVec 2) :
      decodeInput v ⟨false, true, op, d⟩ = .command (decodeCommand v op d) :=
    decodeInput_command _ rfl rfl
  refine ⟨fun _ _ => decodeInput_reset _ rfl, fun _ => decodeInput_idle _ rfl rfl, ?nop, ?setoff,
    ⟨lanesOf v d, ?acc, length_lanesOf d, fun j hj => ?lane⟩, ?fin⟩
  case nop => rw [hop, decodeCommand_nop]
  case setoff => rw [hop, decodeCommand_setoff, offsetField]
  case acc => rw [hop, decodeCommand_acc]
  case fin => rw [hop, decodeCommand_fin]
  case lane =>
    have hlen : j < (lanesOf v d).length := (length_lanesOf d).symm ▸ hj
    rw [List.getElem?_eq_getElem hlen, getElem_lanesOf, lane]

/-- Settles O6: the equation of each edge names the bits of the data word that it reads. -/
theorem ignoredBitsHaveNoEffect : Obligations.IgnoredBitsHaveNoEffect := by
  intro v r d d'
  refine ⟨fun hoff => ?setoff, ?nop, ?fin, fun op => unitStep_of_not_valid r op d,
    fun _ _ _ _ => ?reset⟩
  case setoff =>
    rw [unitStep_setoff_port, unitStep_setoff_port, hoff]
    exact ⟨rfl, startBlock_off r _⟩
  case nop => rw [unitStep_nop_port, unitStep_nop_port]
  case fin => rw [unitStep_fin_port, unitStep_fin_port]
  case reset => rw [unitStep_of_rst r _ rfl, unitStep_of_rst r _ rfl]

/-- Settles O50, line by line. -/
theorem assembledLinesDecode : Obligations.AssembledLinesDecode := by
  intro v
  refine ⟨⟨_, rfl, decodeInput_present_of_wellFormed rfl, rfl⟩,
    ⟨_, rfl, decodeInput_present_of_wellFormed rfl, rfl⟩, ⟨_, rfl, decodeInput_reset _ rfl⟩,
    fun n hn => ⟨_, assembleLine_setoff_of_lt hn, decodeInput_present_of_wellFormed rfl,
      fun k hk => getLsbD_operand_setoff_of_ge _ hk⟩,
    fun n hn => assembleLine_setoff_of_ge hn, ?runsInRange, ?runsOutOfRange,
    fun o ho runs => assembleLine_maxbits_of_ge ho runs, ?idle,
    fun n hn => assembleLine_idle_of_ge hn, rfl,
    fun l ls => ⟨fun a b hl hls => assemble_cons hl hls, assemble_cons_none⟩⟩
  case runsInRange =>
    rintro runs ws rfl hrange
    have hruns := expandRuns_of_lt hrange
    refine ⟨hruns, fun hlen => ⟨_, assembleLine_acc hruns hlen, ?_⟩, assembleLine_acc_of_length_ne hruns,
      fun o ho hsize => ⟨_, assembleLine_maxbits ho hruns hsize, ?_, ?_, performs_transaction v _ _⟩,
      fun hlen o => assembleLine_maxbits_of_length_ne o hruns hlen⟩
    · exact decodeInput_present_of_wellFormed ((wellFormed_acc_iff _).mpr hlen)
    · exact map_decodeInput_present fun _ => wellFormed_of_mem_transaction
    · rw [List.length_map, length_transaction]
  case runsOutOfRange =>
    intro runs hrange
    have hruns := expandRuns_of_ge hrange
    exact ⟨hruns, assembleLine_acc_of_none hruns, fun o => assembleLine_maxbits_of_none o hruns⟩
  case idle =>
    intro n hn
    have hidle : ∀ inp ∈ List.replicate n (Input.idle v), inp.rst = false ∧ inp.cmdValid = false := by
      intro inp hinp
      rw [List.eq_of_mem_replicate hinp]
      exact ⟨rfl, rfl⟩
    exact ⟨_, assembleLine_idle_of_lt hn, List.length_replicate, hidle, unitRun_of_not_valid hidle⟩

end Sys2Proof.Machine
end

/-! # The datapath functions (40_datapath_functions.md)

Wrapping subtraction (R61, R62), the OR and its laws (R63, R64), the bit width (R65 to R68), the widths of
ORs and maxima (R71, R72), the reduction tree (R70), the maximum implementation (R73) and the function of a
block (R74, R75). Bit widths are compared by their upper bounds: two are equal when the same numbers bound
them, and `bw32_le_iff` says what a bound means. -/
section
namespace Sys2Proof.Machine

/-! ## Subtraction (R61, R62) -/

theorem sub32_toNat_of_le {a b : Word} (h : b.toNat ≤ a.toNat) :
    (sub32 a b).toNat = a.toNat - b.toNat :=
  BitVec.toNat_sub_of_le h

theorem sub32_toNat_of_lt {a b : Word} (h : a.toNat < b.toNat) :
    (sub32 a b).toNat = a.toNat + 2 ^ 32 - b.toNat := by
  have hb := b.isLt
  rw [sub32, BitVec.toNat_sub]
  omega

theorem sub32_eq_zero_iff (a b : Word) : sub32 a b = 0 ↔ a = b := by
  rw [sub32, sub_eq_zero]

/-! ## OR (R63, R64) -/

/-- `a` and the bits of `b` that `a` lacks are disjoint, so their OR is their sum. -/
theorem or32_eq_add (a b : Word) : or32 a b = a + (b &&& ~~~a) := by
  have hdisjoint : a &&& (b &&& ~~~a) = 0 := by
    ext i
    cases h : a[i] <;> simp [h]
  rw [BitVec.add_eq_or_of_and_eq_zero _ _ hdisjoint]
  ext i
  cases h : a[i] <;> simp [or32, h]

theorem or32_toNat_le_add (a b : Word) : (or32 a b).toNat ≤ a.toNat + b.toNat := by
  calc (or32 a b).toNat
      = (a.toNat + (b &&& ~~~a).toNat) % 2 ^ 32 := by rw [or32_eq_add, BitVec.toNat_add]
    _ ≤ a.toNat + (b &&& ~~~a).toNat := Nat.mod_le _ _
    _ ≤ a.toNat + b.toNat := by
      rw [BitVec.toNat_and]
      exact Nat.add_le_add_left Nat.and_le_left _

theorem max_le_or32_toNat (a b : Word) : max a.toNat b.toNat ≤ (or32 a b).toNat := by
  rw [or32, BitVec.toNat_or]
  exact max_le Nat.left_le_or Nat.right_le_or

/-- A bit of an OR-sum depends only on which values are members. -/
theorem orAll_congr {xs ys : List Word} (h : ∀ x, x ∈ xs ↔ x ∈ ys) : orAll xs = orAll ys := by
  apply BitVec.eq_of_getLsbD_eq
  intro i _
  rw [getLsbD_orAll, getLsbD_orAll, Bool.eq_iff_iff, List.any_eq_true, List.any_eq_true]
  exact exists_congr fun x => and_congr_left' (h x)

/-! ## The bit width (R65 to R68) -/

theorem bw32_eq_zero_iff (x : Word) : bw32 x = 0 ↔ x = 0 := by
  rw [← Nat.le_zero, bw32_le_iff, Nat.pow_zero, Nat.lt_one_iff]
  exact BitVec.toNat_inj (y := 0)

theorem bw32_mono {x y : Word} (h : x.toNat ≤ y.toNat) : bw32 x ≤ bw32 y :=
  (bw32_le_iff x _).mpr (h.trans_lt ((bw32_le_iff y _).mp le_rfl))

theorem toNat_lt_two_pow_bw32 (x : Word) : x.toNat < 2 ^ bw32 x := (bw32_le_iff x _).mp le_rfl

/-- Below the width of a nonzero value stands its highest 1 bit. -/
theorem exists_highest_bit {x : Word} (h : x ≠ 0) :
    ∃ p, bw32 x = p + 1 ∧ x.getLsbD p = true ∧ ∀ i, p < i → x.getLsbD i = false := by
  obtain ⟨p, hp⟩ := Nat.exists_eq_add_one_of_ne_zero (mt (bw32_eq_zero_iff x).mp h)
  have habove : ∀ i, p < i → x.getLsbD i = false := (bw32_le_iff_bits x (p + 1)).mp hp.le
  refine ⟨p, hp, ?_, habove⟩
  by_contra hbit
  have hle : bw32 x ≤ p := by
    rw [bw32_le_iff_bits]
    intro i hi
    rcases hi.eq_or_lt with rfl | hlt
    · exact Bool.eq_false_of_not_eq_true hbit
    · exact habove i hlt
  omega

theorem bw32_eq_clog (x : Word) : bw32 x = Nat.clog 2 (x.toNat + 1) := by
  refine eq_of_forall_ge_iff fun n => ?_
  rw [bw32_le_iff, Nat.clog_le_iff_le_pow Nat.one_lt_two, Nat.succ_le_iff]

theorem bw32_eq_log_add_one {x : Word} (h : x ≠ 0) : bw32 x = Nat.log 2 x.toNat + 1 := by
  have hx : x.toNat ≠ 0 := mt (BitVec.toNat_inj (y := 0)).mp h
  refine eq_of_forall_ge_iff fun n => ?_
  rw [bw32_le_iff, Nat.succ_le_iff, Nat.log_lt_iff_lt_pow Nat.one_lt_two hx]

theorem bw32_eq_add_one_iff (x : Word) (n : Nat) :
    bw32 x = n + 1 ↔ 2 ^ n ≤ x.toNat ∧ x.toNat < 2 ^ (n + 1) := by
  rw [← bw32_le_iff, ← not_lt, ← bw32_le_iff]
  omega

/-! ## Widths of ORs and maxima (R71, R72) -/

theorem bw32_or32 (a b : Word) : bw32 (or32 a b) = max (bw32 a) (bw32 b) := by
  refine eq_of_forall_ge_iff fun n => ?_
  simp only [max_le_iff, bw32_le_iff_bits, or32, BitVec.getLsbD_or, Bool.or_eq_false_iff,
    imp_and, forall_and]

theorem bw32_max32 (a b : Word) : bw32 (max32 a b) = max (bw32 a) (bw32 b) := by
  refine eq_of_forall_ge_iff fun n => ?_
  simp only [max_le_iff, bw32_le_iff, max32_toNat, max_lt_iff]

theorem bw32_orAll (xs : List Word) : bw32 (orAll xs) = (xs.map bw32).foldr max 0 := by
  induction xs with
  | nil => rfl
  | cons x xs ih => rw [orAll_cons, bw32_or32, ih, List.map_cons, List.foldr_cons]

theorem bw32_maxAll (xs : List Word) : bw32 (maxAll xs) = (xs.map bw32).foldr max 0 := by
  induction xs with
  | nil => rfl
  | cons x xs ih => rw [maxAll_cons, bw32_max32, ih, List.map_cons, List.foldr_cons]

theorem maxAll_toNat (xs : List Word) : (maxAll xs).toNat = (xs.map BitVec.toNat).foldr max 0 := by
  induction xs with
  | nil => rfl
  | cons x xs ih => rw [maxAll_cons, max32_toNat, ih, List.map_cons, List.foldr_cons]

theorem foldr_max_le_iff (l : List Nat) (n : Nat) : l.foldr max 0 ≤ n ↔ ∀ x ∈ l, x ≤ n := by
  induction l with
  | nil => simp
  | cons x l ih => simp [ih]

/-! ## The reduction tree (R69, R70) -/

theorem getLsbD_hor {n : Nat} (t : Vector Word n) (i : Nat) :
    (hor t).getLsbD i = true ↔ ∃ (j : Nat) (h : j < n), t[j].getLsbD i = true := by
  rw [hor, getLsbD_orAll, List.any_eq_true]
  simp only [Vector.mem_toList_iff, Vector.mem_iff_getElem]
  constructor
  · rintro ⟨_, ⟨j, hj, rfl⟩, hbit⟩
    exact ⟨j, hj, hbit⟩
  · rintro ⟨j, hj, hbit⟩
    exact ⟨_, ⟨j, hj, rfl⟩, hbit⟩

theorem getElem_treeLevel (k : Nat) (t : Vector Word (2 ^ (k + 1))) (j : Nat) (h : j < 2 ^ k) :
    (treeLevel k t)[j] =
      or32 (t[j]'(by rw [Nat.pow_succ]; omega)) (t[j + 2 ^ k]'(by rw [Nat.pow_succ]; omega)) := by
  simp [treeLevel]

/-- Every lane is in one half or the other, so a level of the tree loses no bit. -/
theorem hor_treeLevel (k : Nat) (t : Vector Word (2 ^ (k + 1))) : hor (treeLevel k t) = hor t := by
  apply BitVec.eq_of_getLsbD_eq
  intro i _
  rw [Bool.eq_iff_iff, getLsbD_hor, getLsbD_hor]
  have hsize : 2 ^ (k + 1) = 2 ^ k + 2 ^ k := Nat.two_pow_succ k
  constructor
  · rintro ⟨j, hj, hbit⟩
    rw [getElem_treeLevel, or32, BitVec.getLsbD_or, Bool.or_eq_true] at hbit
    rcases hbit with hlow | hhigh
    · exact ⟨j, by omega, hlow⟩
    · exact ⟨j + 2 ^ k, by omega, hhigh⟩
  · rintro ⟨j, hj, hbit⟩
    rcases Nat.lt_or_ge j (2 ^ k) with hlow | hhigh
    · refine ⟨j, hlow, ?_⟩
      rw [getElem_treeLevel, or32, BitVec.getLsbD_or, hbit, Bool.true_or]
    · obtain ⟨l, rfl⟩ := Nat.exists_eq_add_of_le' hhigh
      refine ⟨l, by omega, ?_⟩
      rw [getElem_treeLevel, or32, BitVec.getLsbD_or, hbit, Bool.or_true]

theorem horTree_eq_hor (k : Nat) (t : Vector Word (2 ^ k)) : horTree k t = hor t := by
  induction k with
  | zero =>
    apply BitVec.eq_of_getLsbD_eq
    intro i _
    rw [Bool.eq_iff_iff, getLsbD_hor, horTree]
    constructor
    · exact fun hbit => ⟨0, Nat.one_pos, hbit⟩
    · rintro ⟨j, hj, hbit⟩
      obtain rfl : j = 0 := Nat.lt_one_iff.mp hj
      exact hbit
  | succ k ih => rw [horTree, ih, hor_treeLevel]

/-! ## The maximum implementation (R73)

`SameWidths` is kept operation by operation; `ACC` and `FIN`, the two that differ, keep it because an OR
and a maximum are equally wide. -/

section MaximumImplementation
variable {v : Variant} {m r : Regs v}

theorem sameWidths_refl (r : Regs v) : SameWidths r r := ⟨rfl, rfl, rfl, rfl, fun _ _ => rfl⟩

/-- Lanes equally wide have reductions equally wide. -/
theorem bw32_horMax_eq_hor (h : SameWidths m r) : bw32 (horMax m.acc) = bw32 (hor r.acc) := by
  have hwidths : m.acc.toList.map bw32 = r.acc.toList.map bw32 :=
    List.ext_getElem (by simp) fun j hj _ => by
      simpa using h.width_eq j (by simpa using hj)
  rw [horMax, hor, bw32_maxAll, bw32_orAll, hwidths]

theorem outputs_eq_of_sameWidths (h : SameWidths m r) : outputs m = outputs r := by
  simp only [outputs, full, h.cnt_eq, h.res_eq, h.rv_eq]

theorem sameWidths_startBlock (h : SameWidths m r) (o : Word) :
    SameWidths (startBlock o m) (startBlock o r) where
  off_eq := rfl
  cnt_eq := rfl
  res_eq := h.res_eq
  rv_eq := rfl
  width_eq _ _ := rfl

theorem sameWidths_accumulate (h : SameWidths m r) (e : Vector Word v.lanes) :
    SameWidths (accumulateMax e m) (accumulate e r) := by
  by_cases haccepted : r.cnt.toNat < v.chunks
  · rw [accumulateMax_accepted e m (h.cnt_eq ▸ haccepted), accumulate_accepted e r haccepted]
    refine ⟨h.off_eq, congrArg (· + 1) h.cnt_eq, h.res_eq, rfl, fun j hj => ?_⟩
    rw [getElem_lanewise, getElem_accumulateLanes, bw32_max32, bw32_or32, h.width_eq j hj, h.off_eq]
  · rw [accumulateMax_dropped e m (h.cnt_eq ▸ haccepted), accumulate_dropped e r haccepted]
    exact h

theorem sameWidths_finish (h : SameWidths m r) : SameWidths (finishMax m) (finish r) where
  off_eq := h.off_eq
  cnt_eq := h.cnt_eq
  res_eq := congrArg (BitVec.ofNat 6) (bw32_horMax_eq_hor h)
  rv_eq := rfl
  width_eq := h.width_eq

theorem sameWidths_runCommand (h : SameWidths m r) (i : Instr) :
    SameWidths (runCommandMax v i m) (runCommand v i r) := by
  cases i with
  | nop => exact h
  | setoff o => exact sameWidths_startBlock h o
  | acc es => exact sameWidths_accumulate h (laneOperand v es)
  | fin => exact sameWidths_finish h

theorem sameWidths_unitStep (h : SameWidths m r) (inp : Input v) :
    SameWidths (unitStepMax v m inp) (unitStep v r inp) := by
  rw [unitStepMax, unitStep]
  cases decodeInput v inp with
  | reset => exact sameWidths_refl _
  | command i => exact sameWidths_runCommand h i

theorem sameWidths_unitRun (h : SameWidths m r) (ins : List (Input v)) :
    SameWidths (unitRunMax v m ins) (unitRun v r ins) := by
  induction ins generalizing m r with
  | nil => exact h
  | cons inp ins ih => exact ih (sameWidths_unitStep h inp)

end MaximumImplementation

/-! ## The function of a block (R74, R75) -/

/-- The width of a block is bounded by what bounds the width of every difference. -/
theorem maxbitsFOR_le_iff (o : Word) (B : Block) (n : Nat) :
    maxbitsFOR o B ≤ n ↔ ∀ b ∈ B.toList, (sub32 b o).toNat < 2 ^ n := by
  simp only [maxbitsFOR, bw32_orAll, foldr_max_le_iff, List.forall_mem_map, bw32_le_iff]

theorem maxbitsFOR_eq_zero_iff (o : Word) (B : Block) :
    maxbitsFOR o B = 0 ↔ ∀ b ∈ B.toList, b = o := by
  rw [← Nat.le_zero, maxbitsFOR_le_iff]
  refine forall₂_congr fun b _ => ?_
  rw [← bw32_le_iff, Nat.le_zero, bw32_eq_zero_iff, sub32_eq_zero_iff]

/-- The width of a block depends only on the set of its elements. -/
theorem maxbitsFOR_congr (o : Word) {B B' : Block} (h : ∀ b, b ∈ B'.toList ↔ b ∈ B.toList) :
    maxbitsFOR o B' = maxbitsFOR o B := by
  refine eq_of_forall_ge_iff fun n => ?_
  rw [maxbitsFOR_le_iff, maxbitsFOR_le_iff]
  exact forall_congr' fun b => imp_congr_left (h b)

theorem maxbitsFOR_eq_bw32_maxAll (o : Word) (B : Block) :
    maxbitsFOR o B = bw32 (maxAll (B.toList.map fun b => sub32 b o)) := by
  rw [maxbitsFOR, bw32_orAll, bw32_maxAll]

theorem maxbitsFOR_eq_clog {o : Word} {B : Block} (h : InDomain o B) :
    maxbitsFOR o B = Nat.clog 2 ((B.toList.map fun b => b.toNat - o.toNat).foldr max 0 + 1) := by
  have hdiffs : (B.toList.map fun b => sub32 b o).map BitVec.toNat =
      B.toList.map fun b => b.toNat - o.toNat := by
    rw [List.map_map]
    exact List.map_congr_left fun b hb => sub32_toNat_of_inDomain h hb
  rw [maxbitsFOR_eq_bw32_maxAll, bw32_eq_clog, maxAll_toNat, hdiffs]

/-- Raising an element of an in-domain block raises its difference and leaves the others alone. -/
theorem maxbitsFOR_le_set {o : Word} {B : Block} (h : InDomain o B) {i : Nat} (hi : i < 128) {x : Word}
    (hx : B[i].toNat ≤ x.toNat) : maxbitsFOR o B ≤ maxbitsFOR o (B.set i x) := by
  have hset := (maxbitsFOR_le_iff o (B.set i x) _).mp le_rfl
  rw [maxbitsFOR_le_iff]
  intro b hb
  obtain ⟨j, hj, rfl⟩ := Vector.mem_iff_getElem.mp (Vector.mem_toList_iff.mp hb)
  have hnew := hset _ (Vector.mem_toList_iff.mpr (Vector.getElem_mem (xs := B.set i x) hj))
  rw [Vector.getElem_set] at hnew
  split at hnew
  next hij =>
    subst hij
    have hlow := h _ hb
    rw [sub32_toNat_of_le (hlow.trans hx)] at hnew
    rw [sub32_toNat_of_le hlow]
    omega
  next => exact hnew

/-! ## The claims -/

/-- Settles O8, by whether the subtraction borrows. -/
theorem subtractionWrapsModulo : Obligations.SubtractionWrapsModulo := by
  intro a b
  have ha := a.isLt
  have hb := b.isLt
  refine ⟨?congruence, sub32_toNat_of_le, fun h => ?wrapped, BitVec.sub_self a, BitVec.sub_zero a,
    (sub32_eq_zero_iff a b).mp⟩
  case congruence =>
    rcases Nat.lt_or_ge a.toNat b.toNat with h | h
    · rw [sub32_toNat_of_lt h]; omega
    · rw [sub32_toNat_of_le h]; omega
  case wrapped => rw [sub32_toNat_of_lt h]; omega

/-- Settles O9: the laws bit by bit, the upper bound from the disjoint sum `or32_eq_add`. -/
theorem orLawsAndOrderFreedom : Obligations.OrLawsAndOrderFreedom :=
  ⟨fun a b => ⟨fun _ _ => BitVec.getLsbD_or, BitVec.or_comm a b, BitVec.or_assoc a b, BitVec.or_self,
      BitVec.or_zero, BitVec.or_eq_zero_iff.mp, max_le_or32_toNat a b, or32_toNat_le_add a b⟩,
    orAll_nil, fun _ => BitVec.or_zero, orAll_append, fun _ _ => orAll_congr⟩

/-- Settles O10: the highest 1 bit stands just below the width. -/
theorem leadingZerosAndHighestBit : Obligations.LeadingZerosAndHighestBit := by
  refine ⟨by decide, (bw32_eq_zero_iff 0).mpr rfl, fun x => ⟨clz32_le x, rfl, fun hx => ?_⟩⟩
  obtain ⟨p, hwidth, hbit, habove⟩ := exists_highest_bit hx
  have hclz := clz32_le x
  have hsum : bw32 x = 32 - clz32 x := rfl
  exact ⟨p, by omega, hbit, fun i hi _ => habove i hi, by omega, hwidth⟩

/-- Settles O11, each from `bw32_le_iff`: what bounds the width bounds the value. -/
theorem bitWidthCharacterisations : Obligations.BitWidthCharacterisations := by
  refine fun x => ⟨bw32_le x, bw32_eq_zero_iff x, bw32_eq_log_add_one, bw32_eq_clog x,
    ⟨toNat_lt_two_pow_bw32 x, fun b => (bw32_le_iff x b).mpr⟩, fun b hb _ => ?_⟩
  obtain ⟨n, rfl⟩ := Nat.exists_eq_add_of_le' hb
  rw [bw32_eq_add_one_iff, Nat.add_sub_cancel, Nat.le_sub_one_iff_lt (Nat.two_pow_pos _)]

/-- Settles O12: the width that holds `y` holds `x`. -/
theorem bitWidthIsMonotone : Obligations.BitWidthIsMonotone := fun _ _ => bw32_mono

/-- Settles O13, by induction on the levels of the tree. -/
theorem reductionTreeComputesHorizontalOr : Obligations.ReductionTreeComputesHorizontalOr :=
  ⟨horTree_eq_hor, fun v => horTree_eq_hor v.levels⟩

/-- Settles O14: OR and maximum both have the greater width, so their folds agree. -/
theorem orAndMaximumHaveTheSameWidth : Obligations.OrAndMaximumHaveTheSameWidth :=
  ⟨fun a b => ⟨bw32_or32 a b, (bw32_max32 a b).symm, max32_toNat a b⟩,
    fun xs => ⟨bw32_orAll xs, (bw32_orAll xs).trans (bw32_maxAll xs).symm⟩⟩

/-- Settles O15: `SameWidths` is a simulation of the maximum implementation by the unit. -/
theorem maximumImplementationIsIndistinguishable :
    Obligations.MaximumImplementationIsIndistinguishable :=
  ⟨fun _ _ _ inp h => sameWidths_unitStep h inp,
    fun _ _ _ h => ⟨outputs_eq_of_sameWidths h, bw32_horMax_eq_hor h⟩,
    fun v => sameWidths_refl (Regs.reset v),
    fun v ins => outputs_eq_of_sameWidths (sameWidths_unitRun (sameWidths_refl (Regs.reset v)) ins)⟩

/-- Settles O16, from `maxbitsFOR_le_iff` and the width of the greatest difference. -/
theorem maxbitsCharacterisations : Obligations.MaxbitsCharacterisations := by
  refine fun o B => ⟨⟨?greatestWidth, maxbitsFOR_eq_bw32_maxAll o B⟩,
    ⟨bw32_le _, (maxbitsFOR_le_iff o B _).mp le_rfl, fun n => (maxbitsFOR_le_iff o B n).mpr⟩,
    maxbitsFOR_eq_zero_iff o B, fun _ hperm => maxbitsFOR_congr o fun _ => hperm.mem_iff,
    maxbitsFOR_eq_clog, fun h _ hi _ => maxbitsFOR_le_set h hi⟩
  case greatestWidth => rw [maxbitsFOR, bw32_orAll, List.map_map, Function.comp_def]

/-- Settles O17: the width is 32 when the difference reaches `2^31`. -/
theorem outOfDomainWidth : Obligations.OutOfDomainWidth := by
  intro o b h
  have ho := o.isLt
  have hdiff : (sub32 b o).toNat = 2 ^ 32 - (o.toNat - b.toNat) := by
    rw [sub32_toNat_of_lt h]
    omega
  have hwide : bw32 (sub32 b o) ≤ 31 ↔ 2 ^ 31 < o.toNat - b.toNat := by
    rw [bw32_le_iff, hdiff]
    omega
  have hle := bw32_le (sub32 b o)
  exact ⟨hdiff, by omega, by omega⟩

end Sys2Proof.Machine
end

/-! # SETOFF, the start of a block (41_setoff.md)

`SETOFF` overwrites every register but `RES` (R77), so of the past only `RES` remains (R78). A whole
transaction overwrites that too (R100): between its `SETOFF` and its `FIN` the offset, the lanes and the
count are determined by how many chunks have been accepted, whatever fillers stand between them. -/
section
namespace Sys2Proof.Machine

section Block
variable {v : Variant} {o : Word} {B : Block} {n : Nat} {r q q' : Regs v}

/-! ## What `SETOFF` keeps (R77, R78) -/

/-- The outputs after `SETOFF`: `CNT` is 0 as after reset, so `FULL` is 0 for the same reason. -/
theorem outputs_startBlock (o : Word) (r : Regs v) : outputs (startBlock o r) = ⟨r.res, false, 0, false⟩ := by
  have hfull : full (startBlock o r) = false := congrArg Outputs.full (outputs_reset v)
  simp [outputs, hfull]

theorem startBlock_congr_res (o : Word) {r r' : Regs v} (h : r.res = r'.res) :
    startBlock o r = startBlock o r' :=
  calc startBlock o r = { startBlock o r with res := r'.res } := by rw [← h]; rfl
    _ = startBlock o r' := startBlock_with_res o r r' r'.res

theorem startBlock_startBlock (o o' : Word) (r : Regs v) : startBlock o (startBlock o' r) = startBlock o r :=
  startBlock_congr_res o (startBlock_res r o')

/-! ## The registers inside a transaction (R97) -/

/-- An edge at which a command is sampled has the effect of that command (R95). -/
theorem unitStep_of_command (r : Regs v) {inp : Input v} {i : Instr}
    (h : decodeInput v inp = .command i) : unitStep v r inp = runCommand v i r := by
  rw [unitStep, h]

/-- After `SETOFF o` and the first `n` chunks of `B` the offset, the count and the lanes are determined;
`RES` and `RV` are not, as a `FIN` may stand between the chunks. -/
structure HoldsChunks (o : Word) (B : Block) (n : Nat) (r : Regs v) : Prop where
  /-- The offset of the transaction is latched. -/
  off_eq : r.off = o
  /-- Every chunk so far was accepted. -/
  cnt_eq : r.cnt.toNat = n
  /-- Each lane is the OR of its differences so far; `blockLane` for `n = CHUNKS`. -/
  acc_eq : ∀ (j : Nat) (h : j < v.lanes), r.acc[j] =
    orAll ((List.range n).map fun k => sub32 (B.toList.getD (k * v.lanes + j) 0) o)

theorem getD_chunk (B : Block) (k : Nat) {j : Nat} (hj : j < v.lanes) :
    (chunk v B k).getD j 0 = B.toList.getD (k * v.lanes + j) 0 := by
  rw [List.getD_eq_getElem?_getD, List.getD_eq_getElem?_getD, getElem?_chunk v B k j hj]

theorem holdsChunks_startBlock (o : Word) (B : Block) (r : Regs v) : HoldsChunks o B 0 (startBlock o r) where
  off_eq := rfl
  cnt_eq := by simp
  acc_eq := by simp

theorem holdsChunks_accumulate (h : HoldsChunks o B n r) (hroom : n < v.chunks) :
    HoldsChunks o B (n + 1) (accumulate (laneOperand v (chunk v B n)) r) := by
  have hcnt : r.cnt.toNat < v.chunks := h.cnt_eq ▸ hroom
  refine ⟨(accumulate_off _ r).trans h.off_eq, ?cnt, fun j hj => ?lane⟩
  case cnt => rw [accumulate_cnt_toNat, if_pos hcnt, h.cnt_eq]
  case lane =>
    simp only [accumulate_accepted _ r hcnt, getElem_accumulateLanes, getElem_laneOperand, h.acc_eq j hj,
      h.off_eq, getD_chunk B n hj]
    simp [List.range_succ, orAll_append, or32_eq]

theorem holdsChunks_filler (h : HoldsChunks o B n r) {inp : Input v} (hfill : isFiller v n inp = true) :
    HoldsChunks o B n (unitStep v r inp) := by
  obtain ⟨hoff, hacc, hcnt⟩ := unitStep_of_filler r inp (h.cnt_eq.symm ▸ hfill)
  refine ⟨hoff.trans h.off_eq, by rw [hcnt, h.cnt_eq], fun j hj => ?_⟩
  simp only [hacc, h.acc_eq j hj]

/-- Presenting the next `m` chunks, with fillers anywhere, adds exactly these chunks. -/
theorem holdsChunks_unitRun {m : Nat} {ins : List (Input v)} (h : HoldsChunks o B n r)
    (hroom : n + m ≤ v.chunks) (hpresents : presentsChunks v B n m ins = true) :
    HoldsChunks o B (n + m) (unitRun v r ins) := by
  induction ins generalizing n m r with
  | nil => rwa [(presentsChunks_nil_iff B n m).mp hpresents]
  | cons inp rest ih =>
    rcases (presentsChunks_cons_iff B n m inp rest).mp hpresents with
      ⟨hfill, hrest⟩ | ⟨k, rfl, hdec, hrest⟩
    · exact ih (holdsChunks_filler h hfill) hroom hrest
    · have hshift : n + (k + 1) = n + 1 + k := by omega
      rw [hshift] at hroom ⊢
      rw [unitRun_cons, unitStep_of_command r hdec]
      exact ih (holdsChunks_accumulate h (by omega)) hroom hrest

/-- A transaction ends with a `FIN` on registers that hold all chunks of the block. -/
theorem unitRun_of_performs {ins : List (Input v)} (h : Performs v o B ins) (r : Regs v) :
    ∃ q, HoldsChunks o B v.chunks q ∧ unitRun v r ins = finish q := by
  obtain ⟨first, middle, last, rfl, hfirst, hmiddle, hlast⟩ := h
  have hset : unitStep v r first = startBlock o r := unitStep_of_command r hfirst
  have hfin (q : Regs v) : unitStep v q last = finish q := unitStep_of_command q hlast
  refine ⟨unitRun v (startBlock o r) middle, ?_, ?_⟩
  · simpa using holdsChunks_unitRun (holdsChunks_startBlock o B r) (Nat.zero_add _).le hmiddle
  · rw [List.cons_append, unitRun_cons, hset, unitRun_append, unitRun_cons, hfin, unitRun_nil]

/-- `FIN` overwrites the two registers that `HoldsChunks` leaves open. -/
theorem finish_eq_of_holdsChunks (h : HoldsChunks o B n q) (h' : HoldsChunks o B n q') :
    finish q = finish q' := by
  have hoff : q.off = q'.off := h.off_eq.trans h'.off_eq.symm
  have hcnt : q.cnt = q'.cnt := BitVec.eq_of_toNat_eq (h.cnt_eq.trans h'.cnt_eq.symm)
  have hacc : q.acc = q'.acc := Vector.ext fun j hj => (h.acc_eq j hj).trans (h'.acc_eq j hj).symm
  rw [finish, finish, hoff, hcnt, hacc]

end Block

/-! ## The claims -/

/-- Settles O45: `SETOFF` keeps `RES` only, and the transaction's last `FIN` overwrites `RES` by a function
of the block. -/
theorem historyIsForgotten : Obligations.HistoryIsForgotten := by
  refine ⟨fun v r r' d d' => ⟨fun ins hres => ?follow, ?setoff, ?twice⟩,
    fun v o B r r' ins ins' hins hins' => ?transaction⟩
  case follow =>
    rw [unitRun_cons, unitRun_cons, unitStep_setoff_port, unitStep_setoff_port,
      startBlock_congr_res _ hres]
  case setoff =>
    rw [unitStep_setoff_port, unitStep_setoff_port]
    exact startBlock_with_res _ r r' r'.res
  case twice =>
    simp only [unitRun_cons, unitRun_nil, unitStep_setoff_port]
    exact startBlock_startBlock _ _ r
  case transaction =>
    obtain ⟨q, hq, hrun⟩ := unitRun_of_performs hins r
    obtain ⟨q', hq', hrun'⟩ := unitRun_of_performs hins' r'
    rw [hrun, hrun', finish_eq_of_holdsChunks hq hq']

/-- Settles O19: the machine's `SETOFF` and the edge with opcode `01` are both `startBlock`. -/
theorem setoffStartsBlock : Obligations.SetoffStartsBlock := by
  refine ⟨exec_setoff, fun v r d => ?_⟩
  rw [unitStep_setoff_port]
  exact ⟨rfl, outputs_startBlock _ r⟩

end Sys2Proof.Machine
end

/-! # ACC, the vector subtract and accumulate (42_acc.md)

An accepted `ACC` ORs into each lane that lane's own difference (R81, R82), a dropped one changes nothing
(R83). What edges without a `SETOFF` or a reset do to the offset, the lanes and the count is therefore said by
the list of the `ACC` they had accepted: `Accumulates` says it, composes over consecutive edges, and holds of
every such run with the first `CHUNKS - CNT` of the `ACC` presented. -/
section
namespace Sys2Proof.Machine

section Accumulation
variable {v : Variant} {r s t : Regs v} {xs ys : List (List Word)}

/-! ## One ACC at the ports (R81, R82, R83) -/

/-- An `ACC` for which there is room, as one equation over the registers. -/
theorem unitStep_acc_port_accepted (d : BitVec v.dw) (hroom : r.cnt.toNat < v.chunks) :
    unitStep v r ⟨false, true, 0b10#2, d⟩ =
      { r with acc := accumulateLanes r.off r.acc (laneOperand v (lanesOf v d))
               cnt := r.cnt + 1
               rv := false } := by
  rw [unitStep_acc_port, accumulate_accepted _ r hroom]

theorem unitStep_acc_port_dropped (d : BitVec v.dw) (hfull : ¬ r.cnt.toNat < v.chunks) :
    unitStep v r ⟨false, true, 0b10#2, d⟩ = r := by
  rw [unitStep_acc_port, accumulate_dropped _ r hfull]

theorem unitStep_acc_port_rv (d : BitVec v.dw) (hroom : r.cnt.toNat < v.chunks) :
    (unitStep v r ⟨false, true, 0b10#2, d⟩).rv = false := by
  rw [unitStep_acc_port_accepted d hroom]

theorem unitStep_acc_port_cnt (d : BitVec v.dw) (hroom : r.cnt.toNat < v.chunks) :
    (unitStep v r ⟨false, true, 0b10#2, d⟩).cnt.toNat = r.cnt.toNat + 1 := by
  rw [unitStep_acc_port_accepted d hroom]
  exact cnt_succ_toNat r.cnt hroom

theorem unitStep_acc_port_lane (d : BitVec v.dw) (hroom : r.cnt.toNat < v.chunks) {j : Nat}
    (hj : j < v.lanes) :
    (unitStep v r ⟨false, true, 0b10#2, d⟩).acc[j] = or32 r.acc[j] (sub32 (lane v d j) r.off) := by
  simp only [unitStep_acc_port_accepted d hroom, getElem_accumulateLanes, getElem_laneOperand,
    getD_lanesOf d j hj]

theorem full_unitStep_acc_port_iff (d : BitVec v.dw) (hroom : r.cnt.toNat < v.chunks) :
    full (unitStep v r ⟨false, true, 0b10#2, d⟩) = true ↔ r.cnt.toNat + 1 = v.chunks := by
  rw [full_iff, unitStep_acc_port_cnt d hroom]

/-- A full unit has no room: every `ACC` is dropped. -/
theorem not_lt_chunks_of_full (h : full r = true) : ¬ r.cnt.toNat < v.chunks :=
  ((full_iff r).mp h).not_lt

/-! ## Laws of one lane (R63, R87) -/

theorem or32_zero (x : Word) : or32 x 0 = x := by rw [or32_eq]; exact BitVec.or_zero

theorem zero_or32 (x : Word) : or32 0 x = x := by rw [or32_eq]; exact BitVec.zero_or

theorem or32_assoc (x y z : Word) : or32 (or32 x y) z = or32 x (or32 y z) := BitVec.or_assoc x y z

/-- A difference ORed in twice counts once (R87 (e)). -/
theorem or32_or32_self (x y : Word) : or32 (or32 x y) y = or32 x y := by
  rw [or32_assoc, or32_eq y y, BitVec.or_self]

/-- All ones saturate a lane, on either side of the OR (R87 (b)). -/
theorem or32_allOnes (x : Word) : or32 x 0xFFFFFFFF#32 = 0xFFFFFFFF#32 := BitVec.or_allOnes

theorem allOnes_or32 (x : Word) : or32 0xFFFFFFFF#32 x = 0xFFFFFFFF#32 := BitVec.allOnes_or

/-! ## ACC and FIN (R85) -/

/-- `ACC` does not read what `FIN` writes: the `RES` of the `FIN` stays, and all else is as without it. -/
theorem accumulate_finish (e : Vector Word v.lanes) (hroom : r.cnt.toNat < v.chunks) :
    accumulate e (finish r) = { accumulate e r with res := (finish r).res } := by
  rw [accumulate_accepted e r hroom, accumulate_accepted e (finish r) hroom]
  rfl

/-- `FIN` reads `ACC` only, so the `RES` it finds does not matter. -/
theorem finish_with_res (r : Regs v) (x : BitVec 6) : finish { r with res := x } = finish r := rfl

/-! ## What any edges without a restart accumulate (R83, R86) -/

/-- From `r` to `t` the `ACC` with the elements `xs`, and no others, were accepted. -/
structure Accumulates (r : Regs v) (xs : List (List Word)) (t : Regs v) : Prop where
  /-- The offset is the one latched before. -/
  off_eq : t.off = r.off
  /-- Each accepted `ACC` was counted. -/
  cnt_eq : t.cnt.toNat = r.cnt.toNat + xs.length
  /-- Each lane took in its own differences. -/
  acc_eq : ∀ (j : Nat) (h : j < v.lanes), t.acc[j] =
    or32 r.acc[j] (orAll (xs.map fun es => sub32 (es.getD j 0) r.off))

theorem Accumulates.refl (r : Regs v) : Accumulates r [] r where
  off_eq := rfl
  cnt_eq := rfl
  acc_eq j hj := (or32_zero r.acc[j]).symm

theorem Accumulates.trans (h : Accumulates r xs s) (h' : Accumulates s ys t) :
    Accumulates r (xs ++ ys) t where
  off_eq := h'.off_eq.trans h.off_eq
  cnt_eq := by rw [h'.cnt_eq, h.cnt_eq, List.length_append, Nat.add_assoc]
  acc_eq j hj := by
    rw [h'.acc_eq j hj, h.acc_eq j hj, h.off_eq, List.map_append, orAll_append, or32_assoc]

theorem accumulates_finish (r : Regs v) : Accumulates r [] (finish r) :=
  ⟨rfl, rfl, (Accumulates.refl r).acc_eq⟩

theorem accumulates_accumulate (es : List Word) (hroom : r.cnt.toNat < v.chunks) :
    Accumulates r [es] (accumulate (laneOperand v es) r) where
  off_eq := accumulate_off _ r
  cnt_eq := by rw [accumulate_cnt_toNat, if_pos hroom, List.length_singleton]
  acc_eq j hj := by
    simp only [accumulate_accepted _ r hroom, getElem_accumulateLanes, getElem_laneOperand,
      List.map_singleton, orAll_cons, orAll_nil, or32_zero]

/-- When nothing was accepted, the three registers of the accumulation are as they were. -/
theorem Accumulates.eq_of_nil (h : Accumulates r [] t) : t.off = r.off ∧ t.acc = r.acc ∧ t.cnt = r.cnt :=
  ⟨h.off_eq, Vector.ext fun j hj => (h.acc_eq j hj).trans (or32_zero _), BitVec.eq_of_toNat_eq h.cnt_eq⟩

/-- The elements of the first `n` `ACC` presented by the inputs `ins`. -/
def firstPresented (n : Nat) (ins : List (Input v)) : List (List Word) :=
  (ins.filterMap (accElements v)).take n

theorem firstPresented_cons (n : Nat) (inp : Input v) (ins : List (Input v)) :
    firstPresented n (inp :: ins) = firstPresented n [inp] ++
      firstPresented (n - (firstPresented n [inp]).length) ins := by
  cases hacc : accElements v inp with
  | none => simp [firstPresented, hacc]
  | some es => cases n <;> simp [firstPresented, hacc]

theorem length_of_mem_firstPresented {n : Nat} {ins : List (Input v)} {es : List Word}
    (h : es ∈ firstPresented n ins) : es.length = v.lanes := by
  obtain ⟨inp, -, hacc⟩ := List.mem_filterMap.mp (List.mem_of_mem_take h)
  exact (unitStep_of_accElements (Regs.reset v) hacc).2

/-- One edge accepts the `ACC` it presents, if any, exactly when there is room. -/
theorem accumulates_unitStep (r : Regs v) {inp : Input v} (h : restarts v inp = false) :
    Accumulates r (firstPresented (v.chunks - r.cnt.toNat) [inp]) (unitStep v r inp) := by
  cases hacc : accElements v inp with
  | none =>
    have hnone : firstPresented (v.chunks - r.cnt.toNat) [inp] = [] := by simp [firstPresented, hacc]
    rw [hnone]
    rcases unitStep_of_no_restart r inp h with hstep | ⟨es, hdec, -, -⟩ | hstep
    · rw [hstep]; exact .refl r
    · simp [accElements, hdec] at hacc
    · rw [hstep]; exact accumulates_finish r
  | some es =>
    rw [(unitStep_of_accElements r hacc).1]
    rcases Nat.lt_or_ge r.cnt.toNat v.chunks with hroom | hfull
    · have hone : firstPresented (v.chunks - r.cnt.toNat) [inp] = [es] := by
        have hpos : 1 ≤ v.chunks - r.cnt.toNat := Nat.sub_pos_of_lt hroom
        simpa [firstPresented, hacc] using hpos
      rw [hone]
      exact accumulates_accumulate es hroom
    · rw [accumulate_dropped _ r hfull.not_gt, Nat.sub_eq_zero_of_le hfull]
      exact .refl r

/-- Edges without a restart accept the first `CHUNKS - CNT` of the `ACC` they present (R81, R83). -/
theorem accumulates_unitRun (r : Regs v) {ins : List (Input v)} (h : ∀ inp ∈ ins, restarts v inp = false) :
    Accumulates r (firstPresented (v.chunks - r.cnt.toNat) ins) (unitRun v r ins) := by
  induction ins generalizing r with
  | nil => simpa [firstPresented] using Accumulates.refl r
  | cons inp ins ih =>
    have hfirst := accumulates_unitStep r (h inp List.mem_cons_self)
    have hrest := ih (unitStep v r inp) fun i hi => h i (List.mem_cons_of_mem _ hi)
    rw [hfirst.cnt_eq, ← Nat.sub_sub] at hrest
    rw [firstPresented_cons, unitRun_cons]
    exact hfirst.trans hrest

/-- A full unit accepts nothing until a restart (R83). -/
theorem unitRun_of_full (hfull : full r = true) {ins : List (Input v)}
    (h : ∀ inp ∈ ins, restarts v inp = false) :
    (unitRun v r ins).off = r.off ∧ (unitRun v r ins).acc = r.acc ∧ (unitRun v r ins).cnt = r.cnt := by
  have hacc := accumulates_unitRun r h
  rw [(full_iff r).mp hfull, Nat.sub_self] at hacc
  exact hacc.eq_of_nil

theorem full_unitRun_of_full (hfull : full r = true) {ins : List (Input v)}
    (h : ∀ inp ∈ ins, restarts v inp = false) : full (unitRun v r ins) = true := by
  obtain ⟨-, -, hcnt⟩ := unitRun_of_full hfull h
  rw [full_iff, hcnt]
  exact (full_iff r).mp hfull

/-- The OR over all lanes of the ORs over all chunks is the OR over all elements (R86). -/
theorem hor_eq_orAll_flatten {n : Nat} {t : Vector Word n} (f : Word → Word)
    (hlen : ∀ es ∈ xs, es.length = n)
    (hlane : ∀ (j : Nat) (h : j < n), t[j] = orAll (xs.map fun es => f (es.getD j 0))) :
    hor t = orAll (xs.flatten.map f) := by
  apply BitVec.eq_of_getLsbD_eq
  intro i _
  rw [Bool.eq_iff_iff, getLsbD_hor, getLsbD_orAll]
  simp only [List.any_eq_true, List.mem_map, List.mem_flatten]
  constructor
  · rintro ⟨j, hj, hbit⟩
    rw [hlane j hj, getLsbD_orAll, List.any_map, List.any_eq_true] at hbit
    obtain ⟨es, hes, hbit⟩ := hbit
    have hj' : j < es.length := hlen es hes ▸ hj
    refine ⟨_, ⟨es.getD j 0, ⟨es, hes, ?_⟩, rfl⟩, hbit⟩
    rw [List.getD_eq_getElem _ _ hj']
    exact List.getElem_mem hj'
  · rintro ⟨_, ⟨e, ⟨es, hes, he⟩, rfl⟩, hbit⟩
    obtain ⟨j, hj, rfl⟩ := List.mem_iff_getElem.mp he
    have hj' : j < n := hlen es hes ▸ hj
    refine ⟨j, hj', ?_⟩
    rw [hlane j hj', getLsbD_orAll, List.any_map, List.any_eq_true]
    refine ⟨es, hes, ?_⟩
    rwa [Function.comp_apply, List.getD_eq_getElem _ _ hj]

end Accumulation

/-! ## The claims -/

/-- Settles O20: an accepted `ACC` is the one equation of `accumulate_accepted`, a dropped one changes
nothing. -/
theorem accAccumulatesDifferences : Obligations.AccAccumulatesDifferences := by
  refine ⟨fun elems s _ => ⟨fun hroom => ⟨_, exec_acc elems s, rfl, ?_⟩, fun hfull => ?_⟩,
    fun v r d => ⟨fun hroom => ⟨?_, ?_, unitStep_acc_port_rv d hroom, unitStep_acc_port_cnt d hroom,
      full_unitStep_acc_port_iff d hroom, fun j hj => unitStep_acc_port_lane d hroom hj⟩,
      unitStep_acc_port_dropped d⟩⟩
  · rw [State.withRegs_regs, accumulate_accepted _ s.regs hroom]
    refine ⟨rfl, rfl, rfl, cnt_succ_toNat _ hroom, fun j hj => ?_⟩
    rw [getElem_accumulateLanes, getElem_laneOperand]
  · rw [exec_acc, accumulate_dropped _ _ hfull, State.withRegs_self]
  · rw [unitStep_acc_port, accumulate_off]
  · rw [unitStep_acc_port, accumulate_res]

/-- Settles O21: `CNT = CHUNKS` leaves no room, now and until the next restart. -/
theorem fullUnitDropsAcc : Obligations.FullUnitDropsAcc := by
  refine ⟨fun elems s hfull => ?_, fun v r hfull =>
    ⟨fun d => unitStep_acc_port_dropped d (not_lt_chunks_of_full hfull), fun _ => unitRun_of_full hfull⟩⟩
  rw [exec_acc, accumulate_dropped _ _ (not_lt_chunks_of_full hfull), State.withRegs_self]

/-- Settles O22: the equation of lane `j` names nothing of any other lane. -/
theorem lanesAreIndependent : Obligations.LanesAreIndependent := by
  intro v r r' d d' j hj hroom hroom'
  refine ⟨unitStep_acc_port_lane d hroom hj, fun hoff hacc hlane => ?_⟩
  rw [unitStep_acc_port_lane d hroom hj, unitStep_acc_port_lane d' hroom' hj, hoff, hacc, hlane]

/-- Settles O26: laws of OR lane by lane for (a) to (e), and for (f) that one `ACC` fills a unit with
`CHUNKS = 1`. -/
theorem accCornerCases : Obligations.AccCornerCases := by
  refine ⟨fun v r d hroom hequal => ?equal, ⟨rfl, or32_allOnes, fun v r j hj ins hones hins => ?saturated⟩,
    rfl, fun v r j hj ins hins => ?grows, fun v r d hroom => ?twice, fun r d₀ d ins hins => ?single⟩
  case equal =>
    refine ⟨Vector.ext fun j hj => ?_, unitStep_acc_port_cnt d hroom, unitStep_acc_port_rv d hroom⟩
    rw [unitStep_acc_port_lane d hroom hj, (sub32_eq_zero_iff _ _).mpr (hequal j hj), or32_zero]
  case saturated =>
    rw [(accumulates_unitRun r hins).acc_eq j hj, hones, allOnes_or32]
  case grows =>
    rw [(accumulates_unitRun r hins).acc_eq j hj]
    refine ⟨fun i hbit => ?_, (le_max_left _ _).trans (max_le_or32_toNat _ _)⟩
    rw [or32_eq, BitVec.getLsbD_or, hbit, Bool.true_or]
  case twice =>
    have hfirst : r.cnt.toNat < v.chunks := by omega
    have hcnt := unitStep_acc_port_cnt d hfirst
    have hsecond : (unitStep v r ⟨false, true, 0b10#2, d⟩).cnt.toNat < v.chunks := by omega
    have hoff : (unitStep v r ⟨false, true, 0b10#2, d⟩).off = r.off := accumulate_off _ r
    simp only [unitRun_cons, unitRun_nil]
    refine ⟨Vector.ext fun j hj => ?_, by rw [unitStep_acc_port_cnt d hsecond, hcnt]⟩
    rw [unitStep_acc_port_lane d hsecond hj, hoff, unitStep_acc_port_lane d hfirst hj, or32_or32_self]
  case single =>
    have hcnt : (unitStep .l128 r ⟨false, true, 0b01#2, d₀⟩).cnt.toNat = 0 := by
      rw [unitStep_setoff_port, startBlock_cnt]
      rfl
    have hroom : (unitStep .l128 r ⟨false, true, 0b01#2, d₀⟩).cnt.toNat < Variant.chunks .l128 :=
      hcnt.trans_lt (Variant.chunks_pos .l128)
    have hfull : full (unitRun .l128 r [⟨false, true, 0b01#2, d₀⟩, ⟨false, true, 0b10#2, d⟩]) = true := by
      refine (full_unitStep_acc_port_iff d hroom).mpr ?_
      rw [hcnt]
      rfl
    refine ⟨(accepts_iff _).mpr hroom, hfull, fun d' => ?_⟩
    rw [unitRun_append]
    exact unitStep_acc_port_dropped d' (not_lt_chunks_of_full (full_unitRun_of_full hfull hins))

/-- Settles O27: `SETOFF 0` writes the reset values, and `ACC` commutes with a `FIN` but for the `RES` that
the next `FIN` overwrites. -/
theorem accWithoutSetoff : Obligations.AccWithoutSetoff := by
  refine ⟨fun v r hres => ?setoff, fun v d j hj => ?reset, fun v r d f f' hroom => ⟨?rv, ?acc, ?finish⟩⟩
  case setoff =>
    calc unitStep v r (present v (.setoff 0))
        = startBlock 0 r := unitStep_of_command r (decodeInput_present_of_wellFormed rfl)
      _ = startBlock 0 (Regs.reset v) := startBlock_congr_res 0 hres
      _ = Regs.reset v := rfl
  case reset =>
    have hroom : (Regs.reset v).cnt.toNat < v.chunks := by simpa using v.chunks_pos
    rw [unitStep_acc_port_lane d hroom hj]
    simp only [Regs.reset_acc, Vector.getElem_replicate, Regs.reset_off, zero_or32]
    exact BitVec.sub_zero _
  case rv => exact unitStep_acc_port_rv d (r := finish r) hroom
  case acc =>
    simp only [unitRun_cons, unitRun_nil, unitStep_fin_port, unitStep_acc_port, accumulate_finish _ hroom]
  case finish =>
    simp only [unitRun_cons, unitRun_nil, unitStep_fin_port, unitStep_acc_port, accumulate_finish _ hroom,
      finish_with_res]

/-- Settles O38: after `SETOFF` there is room for `CHUNKS` chunks, and the lanes hold nothing else. -/
theorem accumulatorHoldsOrOfDifferences : Obligations.AccumulatorHoldsOrOfDifferences := by
  intro v r off ins hins
  have hset : unitStep v r (present v (.setoff off)) = startBlock off r :=
    unitStep_of_command r (decodeInput_present_of_wellFormed rfl)
  have hacc : Accumulates (startBlock off r) (firstPresented v.chunks ins)
      (unitRun v (startBlock off r) ins) := by
    simpa using accumulates_unitRun (startBlock off r) hins
  have hlane (j : Nat) (hj : j < v.lanes) : (unitRun v (startBlock off r) ins).acc[j] =
      orAll ((firstPresented v.chunks ins).map fun es => sub32 (es.getD j 0) off) := by
    rw [hacc.acc_eq j hj]
    simp only [startBlock_acc, Vector.getElem_replicate, startBlock_off, zero_or32]
  rw [unitRun_cons, hset]
  refine ⟨hacc.off_eq, ?_, hlane,
    hor_eq_orAll_flatten (sub32 · off) (fun _ => length_of_mem_firstPresented) hlane⟩
  rw [hacc.cnt_eq, startBlock_cnt, firstPresented, List.length_take, Nat.min_comm]
  exact Nat.zero_add _

end Sys2Proof.Machine
end

/-! # FIN, the reduction of the accumulator (43_fin.md)

`FIN` writes the bit width of the OR over all lanes and sets `RV`; it keeps the offset, the lanes and the count
(R88, R90). So a result is bounded by what bounds the lanes: lanes that only gain bits give results that never
decrease (R91), lanes that hold the differences of the accepted elements give the least width that holds them
all (R86, R90), and empty lanes give 0 (R93). -/
section
namespace Sys2Proof.Machine

section Finish
variable {v : Variant} {r t : Regs v} {xs : List (List Word)}

/-! ## What bounds the width of a reduction (R71, R72) -/

theorem bw32_orAll_le_iff (ws : List Word) (n : Nat) : bw32 (orAll ws) ≤ n ↔ ∀ w ∈ ws, bw32 w ≤ n := by
  rw [bw32_orAll, foldr_max_le_iff, List.forall_mem_map]

theorem bw32_hor_le_iff {m : Nat} (w : Vector Word m) (n : Nat) :
    bw32 (hor w) ≤ n ↔ ∀ (j : Nat) (h : j < m), bw32 w[j] ≤ n := by
  rw [hor, bw32_orAll_le_iff]
  simp only [Vector.mem_toList_iff, Vector.forall_mem_iff_forall_getElem]

theorem bw32_hor_replicate_zero (m : Nat) : bw32 (hor (Vector.replicate m 0)) = 0 := by
  rw [← Nat.le_zero, bw32_hor_le_iff]
  intro j hj
  rw [Vector.getElem_replicate, (bw32_eq_zero_iff 0).mpr rfl]

/-- Lanes only gain bits while `ACC` are accepted, so their reduction never gets narrower (R91). -/
theorem Accumulates.bw32_hor_le (h : Accumulates r xs t) : bw32 (hor r.acc) ≤ bw32 (hor t.acc) := by
  rw [bw32_hor_le_iff]
  intro j hj
  calc bw32 r.acc[j]
      ≤ bw32 t.acc[j] := by rw [h.acc_eq j hj, bw32_or32]; exact le_max_left _ _
    _ ≤ bw32 (hor t.acc) := (bw32_hor_le_iff t.acc _).mp le_rfl j hj

/-! ## The result of a FIN (R88, R89) -/

/-- `RES` is the width itself: 6 bits hold every width (R89). -/
theorem finish_res_toNat (r : Regs v) : (finish r).res.toNat = bw32 (hor r.acc) := toNat_ofNat_bw32 _

theorem finish_res_of_width {n : Nat} (h : bw32 (hor r.acc) = n) : (finish r).res = BitVec.ofNat 6 n := by
  rw [finish_res, h]

/-- `FIN` reads the lanes only, and those it keeps. -/
theorem finish_finish (r : Regs v) : finish (finish r) = finish r := rfl

theorem outputs_finish (r : Regs v) : outputs (finish r) = ⟨(finish r).res, true, r.cnt, full r⟩ := rfl

/-- Extending `RES` with zeros keeps its value (R98). -/
theorem returnedValue_outputs_toNat (r : Regs v) : (returnedValue (outputs r)).toNat = r.res.toNat :=
  BitVec.toNat_setWidth_of_le (by decide)

theorem finish_res_of_empty (h : r.acc = Vector.replicate v.lanes 0) : (finish r).res = 0 :=
  finish_res_of_width (by rw [h, bw32_hor_replicate_zero])

/-! ## A FIN at the ports and at the end of a run -/

theorem unitStep_present_fin (r : Regs v) : unitStep v r (present v .fin) = finish r :=
  unitStep_of_command r (decodeInput_present_of_wellFormed rfl)

theorem unitStep_present_setoff (r : Regs v) (off : Word) :
    unitStep v r (present v (.setoff off)) = startBlock off r :=
  unitStep_of_command r (decodeInput_present_of_wellFormed rfl)

theorem unitRun_concat_fin (r : Regs v) (ins : List (Input v)) (d : BitVec v.dw) :
    unitRun v r (ins ++ [⟨false, true, 0b11#2, d⟩]) = finish (unitRun v r ins) := by
  rw [unitRun_append, unitRun_cons, unitRun_nil, unitStep_fin_port]

/-- What bounds the result after `SETOFF`, edges without a restart and `FIN`: every difference that was
accepted, and nothing else (R86, R90). -/
theorem finish_block_res_le_iff (r : Regs v) (off : Word) {ins : List (Input v)}
    (hins : ∀ inp ∈ ins, restarts v inp = false) (n : Nat) :
    (finish (unitRun v r (present v (.setoff off) :: ins))).res.toNat ≤ n ↔
      ∀ es ∈ firstPresented v.chunks ins, ∀ e ∈ es, (sub32 e off).toNat < 2 ^ n := by
  obtain ⟨-, -, -, hhor⟩ := accumulatorHoldsOrOfDifferences v r off ins hins
  rw [finish_res_toNat, hhor, bw32_orAll_le_iff, List.forall_mem_map, List.forall_mem_flatten]
  simp only [bw32_le_iff, firstPresented]

end Finish

/-! ## The claims -/

/-- Settles O23: the machine's `FIN` and the edge with opcode `11` are both `finish`. -/
theorem finWritesBitWidth : Obligations.FinWritesBitWidth := by
  refine ⟨fun s => ⟨_, finish_res_toNat s.regs, exec_fin s⟩, fun v r d => ⟨(finish r).res, ?_⟩⟩
  have hwidth := finish_res_toNat r
  rw [unitStep_fin_port]
  refine ⟨rfl, hwidth, hwidth, hwidth.trans_le (bw32_le _), fun hzero => ?zero, finish_res_of_width,
    outputs_finish r, (returnedValue_outputs_toNat _).trans hwidth⟩
  case zero => exact finish_res_of_width ((bw32_eq_zero_iff _).mpr hzero)

/-- Settles O28: the lanes that the second `FIN` reduces have all the bits that the first found. -/
theorem runningWidthNeverDecreases : Obligations.RunningWidthNeverDecreases := by
  intro v r d d'
  rw [unitRun_cons, unitRun_cons, unitRun_nil]
  simp only [unitStep_fin_port]
  refine ⟨finish_off r, finish_acc r, finish_cnt r, finish_finish r, fun ins hins => ?_⟩
  rw [unitRun_concat_fin, unitRun_cons, unitStep_fin_port, finish_res_toNat, finish_res_toNat]
  exact (accumulates_unitRun (finish r) hins).bw32_hor_le

/-- Settles O39: the result is the least of the widths that `finish_block_res_le_iff` admits. -/
theorem earlyFinishCoversWhatWasAccepted : Obligations.EarlyFinishCoversWhatWasAccepted := by
  intro v r off ins d hins
  have hbound := finish_block_res_le_iff r off hins
  rw [unitRun_concat_fin]
  exact ⟨finish_rv _, (hbound _).mp le_rfl, fun n => (hbound n).mpr⟩

/-- Settles O40: reset and `SETOFF` both leave every lane 0. -/
theorem emptyAccumulationHasWidthZero : Obligations.EmptyAccumulationHasWidthZero := by
  intro v r off
  simp only [unitRun_cons, unitRun_nil, unitStep_present_setoff, unitStep_present_fin]
  exact ⟨finish_res_of_empty (startBlock_acc r off), finish_rv _, finish_res_of_empty (Regs.reset_acc v),
    finish_rv _⟩

end Sys2Proof.Machine
end

/-! # NOP and the transaction (44_nop_and_transaction.md)

`NOP` and the idle edge are the identity (R94), and the step function is total (R95). A transaction ends with a
`FIN` on lanes that hold every difference of the block once, so its result is `maxbits_FOR(o, B)` (R97): a
function of the offset and the block that names neither `LANES` nor what stood in the registers nor the fillers.
What the spec says of results is then said of that function (R101 to R104, R106). The unit that shows the result
is full and finished, and such a unit changes only at a restart (R98). -/
section
namespace Sys2Proof.Machine

section Result
variable {v : Variant} {o : Word} {B : Block} {r q : Regs v} {ins : List (Input v)}

/-! ## The result of a transaction (R97) -/

/-- The lanes together hold the difference of every element of the block (R35, R97). -/
theorem HoldsChunks.hor_eq (h : HoldsChunks o B v.chunks q) :
    hor q.acc = orAll (B.toList.map (sub32 · o)) := by
  have hlen : ∀ es ∈ (List.range v.chunks).map (chunk v B), es.length = v.lanes :=
    List.forall_mem_map.mpr fun k hk => length_chunk B (List.mem_range.mp hk)
  rw [← flatMap_chunk_eq_block v B, List.flatMap_def]
  refine hor_eq_orAll_flatten (sub32 · o) hlen fun j hj => ?_
  rw [h.acc_eq j hj, List.map_map]
  refine congrArg orAll (List.map_congr_left fun k _ => ?_)
  rw [Function.comp_apply, getD_chunk B k hj]

theorem HoldsChunks.full_eq (h : HoldsChunks o B v.chunks q) : full q = true := (full_iff q).mpr h.cnt_eq

theorem finish_res_of_holdsChunks (h : HoldsChunks o B v.chunks q) :
    (finish q).res.toNat = maxbitsFOR o B := by
  rw [finish_res_toNat, h.hor_eq, maxbitsFOR]

theorem Performs.res_eq (h : Performs v o B ins) (r : Regs v) :
    (unitRun v r ins).res.toNat = maxbitsFOR o B := by
  obtain ⟨q, hq, hrun⟩ := unitRun_of_performs h r
  rw [hrun, finish_res_of_holdsChunks hq]

theorem Performs.rv_eq (h : Performs v o B ins) (r : Regs v) : (unitRun v r ins).rv = true := by
  obtain ⟨q, -, hrun⟩ := unitRun_of_performs h r
  rw [hrun, finish_rv]

theorem Performs.res_eq_zero_iff (h : Performs v o B ins) (r : Regs v) :
    (unitRun v r ins).res = 0 ↔ ∀ b ∈ B.toList, b = o := by
  rw [← maxbitsFOR_eq_zero_iff, ← h.res_eq r]
  exact BitVec.toNat_inj.symm

/-! ## The needed width of an in-domain block (R103, R106) -/

/-- In domain the result is at most `n` exactly when every difference fits in `n` bits. -/
theorem maxbitsFOR_le_iff_fitsWidth (h : InDomain o B) (n : Nat) : maxbitsFOR o B ≤ n ↔ FitsWidth n o B := by
  rw [maxbitsFOR_le_iff]
  exact forall₂_congr fun b hb => by rw [sub32_toNat_of_inDomain h hb]

theorem fitsWidth_maxbitsFOR (h : InDomain o B) : FitsWidth (maxbitsFOR o B) o B :=
  (maxbitsFOR_le_iff_fitsWidth h _).mp le_rfl

theorem maxbitsFOR_le_32 (o : Word) (B : Block) : maxbitsFOR o B ≤ 32 := bw32_le _

/-- All 32 bits are needed exactly when 31 do not suffice. -/
theorem maxbitsFOR_eq_32_iff (h : InDomain o B) :
    maxbitsFOR o B = 32 ↔ ∃ b ∈ B.toList, 2 ^ 31 ≤ b.toNat - o.toNat := by
  have hle := maxbitsFOR_le_32 o B
  calc maxbitsFOR o B = 32
      ↔ ¬ maxbitsFOR o B ≤ 31 := by omega
    _ ↔ ¬ FitsWidth 31 o B := not_congr (maxbitsFOR_le_iff_fitsWidth h 31)
    _ ↔ ∃ b ∈ B.toList, 2 ^ 31 ≤ b.toNat - o.toNat := by simp only [FitsWidth, not_forall, not_lt, exists_prop]

/-! ## Holding the result (R83, R98) -/

/-- A full unit after `FIN` drops an `ACC`, and a further `FIN` computes the same. -/
theorem unitStep_finish_of_full (hfull : full q = true) {inp : Input v} (h : restarts v inp = false) :
    unitStep v (finish q) inp = finish q := by
  rcases unitStep_of_no_restart (finish q) inp h with hstep | ⟨es, -, -, hstep⟩ | hstep
  · exact hstep
  · exact hstep.trans (accumulate_dropped _ _ (not_lt_chunks_of_full hfull))
  · exact hstep.trans (finish_finish q)

theorem unitRun_finish_of_full (hfull : full q = true) (h : ∀ inp ∈ ins, restarts v inp = false) :
    unitRun v (finish q) ins = finish q := by
  induction ins with
  | nil => rfl
  | cons inp rest ih =>
    obtain ⟨hinp, hrest⟩ := List.forall_mem_cons.mp h
    rw [unitRun_cons, unitStep_finish_of_full hfull hinp]
    exact ih hrest

/-! ## The step function is total (R95) -/

theorem runCommand_acc_accepted (es : List Word) (hroom : r.cnt.toNat < v.chunks) :
    runCommand v (.acc es) r =
      { r with acc := Vector.ofFn fun j : Fin v.lanes => or32 r.acc[j.val] (sub32 (es.getD j.val 0) r.off)
               cnt := r.cnt + 1
               rv := false } := by
  have hlanes : accumulateLanes r.off r.acc (laneOperand v es) =
      Vector.ofFn fun j : Fin v.lanes => or32 r.acc[j.val] (sub32 (es.getD j.val 0) r.off) :=
    Vector.ext fun j hj => by rw [getElem_accumulateLanes, getElem_laneOperand, Vector.getElem_ofFn]
  rw [runCommand, accumulate_accepted _ r hroom, hlanes]

end Result

theorem step_cons (r : Regs Config.variant) (inp : Input Config.variant)
    (rest : List (Input Config.variant)) :
    step ⟨r, inp :: rest⟩ = .next ⟨unitStep Config.variant r inp, rest⟩ := step_eq _

/-- Each command is performed by an operation that answers a next state. -/
theorem completes_exec (i : Instr) (s : State) : Completes (exec i s) := by
  cases i with
  | nop => exact ⟨_, exec_nop s⟩
  | setoff off => exact ⟨_, exec_setoff off s⟩
  | acc es => exact ⟨_, exec_acc es s⟩
  | fin => exact ⟨_, exec_fin s⟩

/-! ## The claims -/

/-- Settles O33: the step by `step_eq`, and the registers by the step kind that is decoded. -/
theorem machineStepIsTheStepFunction : Obligations.MachineStepIsTheStepFunction := by
  refine ⟨step_cons, fun v r inp => ⟨fun h => ?reset, unitStep_of_command r, fun _ => unitStep_of_command r,
    fun es h => ⟨fun hroom => ?accepted, fun hfull => ?dropped⟩, unitStep_of_command r⟩,
    fun s => ⟨_, step_eq s⟩, completes_exec⟩
  case reset => rw [unitStep, h]
  case accepted => rw [unitStep_of_command r h, runCommand_acc_accepted es hroom]
  case dropped => exact (unitStep_of_command r h).trans (accumulate_dropped _ r hfull)

/-- Settles O42: the last `FIN` keeps what the chunks left in the lanes and writes the width of their OR. -/
theorem transactionComputesMaxbits : Obligations.TransactionComputesMaxbits := by
  intro v o B r ins h
  obtain ⟨q, hq, hrun⟩ := unitRun_of_performs h r
  rw [hrun]
  exact ⟨hq.off_eq, hq.acc_eq, hq.cnt_eq, finish_res_of_holdsChunks hq, finish_rv q, hq.full_eq⟩

/-- Settles O44: both results are `maxbits_FOR(o, B)`, and the maximum implementation shows the outputs of the
unit that samples the same inputs. -/
theorem variantsAgree : Obligations.VariantsAgree := by
  intro o B v w r q ins jns hins hjns
  have hmax := sameWidths_unitRun (sameWidths_refl q) jns
  have hres : (unitRun v r ins).res = (unitRun w q jns).res :=
    BitVec.eq_of_toNat_eq ((hins.res_eq r).trans (hjns.res_eq q).symm)
  exact ⟨hins.res_eq r, hins.rv_eq r, hres, (hins.rv_eq r).trans (hjns.rv_eq q).symm,
    hmax.res_eq.trans hres.symm, hmax.rv_eq.trans (hjns.rv_eq q)⟩

/-- Settles O46: `maxbits_FOR` depends on the set of the elements only. -/
theorem elementOrderIsImmaterial : Obligations.ElementOrderIsImmaterial := by
  intro v o B B' hset r r' ins ins' h h'
  apply BitVec.eq_of_toNat_eq
  rw [h.res_eq, h'.res_eq, maxbitsFOR_congr o hset]

/-- Settles O47, by what bounds `maxbits_FOR` of an in-domain block. -/
theorem inDomainResultIsTheNeededWidth : Obligations.InDomainResultIsTheNeededWidth := by
  intro v o B r ins hdom h
  rw [h.res_eq_zero_iff, h.res_eq]
  exact ⟨fitsWidth_maxbitsFOR hdom, fun n => (maxbitsFOR_le_iff_fitsWidth hdom n).mpr,
    maxbitsFOR_eq_clog hdom, Iff.rfl⟩

/-- Settles O48: in domain a larger element has a larger difference. -/
theorem resultIsMonotoneInEachElement : Obligations.ResultIsMonotoneInEachElement := by
  intro v o B i hi x r r' ins ins' hdom hx h h'
  rw [h.res_eq, h'.res_eq]
  exact maxbitsFOR_le_set hdom hi hx.le

/-- Settles O49: a transaction leaves the unit full and finished. -/
theorem finishedTransactionIsHeld : Obligations.FinishedTransactionIsHeld := by
  intro v o B r ins later h hlater
  obtain ⟨q, hq, hrun⟩ := unitRun_of_performs h r
  rw [unitRun_append, hrun, unitRun_finish_of_full hq.full_eq hlater]

/-- Settles O51: the returned width is the least that fits, and every size is a multiple of it. -/
theorem returnedWidthMakesPackingLossless : Obligations.ReturnedWidthMakesPackingLossless := by
  intro v o B r ins hdom h n hn
  rw [returnedValue_outputs_toNat, h.res_eq] at hn
  subst hn
  have hfits := fitsWidth_maxbitsFOR hdom
  have hle := maxbitsFOR_le_32 o B
  rw [h.res_eq, ← maxbitsFOR_eq_zero_iff, ← maxbitsFOR_eq_32_iff hdom]
  refine ⟨hfits, fun pack unpack hinv => hinv o _ B hdom hfits, Nat.mul_comm _ _, rfl, packedBits_eq _, ?_⟩
  simp only [packedBytes]
  omega

/-- Settles O18: the machine's `NOP` and the edges that decode to `NOP` are the identity. -/
theorem nopIsTheIdentity : Obligations.NopIsTheIdentity := by
  refine ⟨exec_nop, fun v r d => ⟨unitStep_nop_port r d, fun op => unitStep_of_not_valid r op d⟩,
    fun r d rest => ⟨?_, fun op => ?_⟩⟩
  · rw [step_cons, unitStep_nop_port]
  · rw [step_cons, unitStep_of_not_valid]

end Sys2Proof.Machine
end

/-! # Reset, and launch premises for a claim (70_reset_and_hazards.md)

A reset edge discards whatever command is presented at it (R121). A claim about a result is stated of the machine
from every register state, over a schedule that begins with the inputs of a transaction (R136): running the
machine over those inputs is running the unit over them, so the result of the transaction is the machine's too. -/
section
namespace Sys2Proof.Machine

/-- Running over the first inputs of a schedule performs them on the registers and leaves the rest scheduled (R42). -/
theorem run_append_schedule (r : Regs Config.variant) (ins rest : List (Input Config.variant)) :
    (core.run ins.length (⟨r, ins ++ rest⟩ : State) : Host.Outcome State Fault Refusal) =
      .next ⟨unitRun Config.variant r ins, rest⟩ := by
  have hlen : ins.length ≤ (ins ++ rest).length := by simp
  rw [runIsTheFoldOfTheStepFunction ins.length ⟨r, ins ++ rest⟩ hlen, List.take_left, List.drop_left]

/-! ## The claims -/

/-- Settles O43: the machine's run is the unit's, which ends with the `FIN` of the transaction. -/
theorem machinePerformsTransactions : Obligations.MachinePerformsTransactions := by
  intro o B r ins rest h
  exact ⟨⟨unitRun Config.variant r ins, rest⟩, run_append_schedule r ins rest, rfl, h.rv_eq r, h.res_eq r⟩

/-- Settles O29: `rst = 1` selects the reset step before any command is decoded. -/
theorem resetWinsOverCommands : Obligations.ResetWinsOverCommands := by
  refine ⟨fun v r valid op d => unitStep_of_rst r _ rfl, fun r valid op d rest => ?_⟩
  rw [step_cons, unitStep_of_rst r _ rfl]
  rfl

end Sys2Proof.Machine
end

/-! # Command words (30_encoding.md)

Decoding and encoding as two directions of one correspondence between command words and commands (R47 to R52,
R57). A command word is its operand above its opcode, so both directions split into the two fields. Encoding a
well-formed command loses nothing. Encoding what a word decodes to keeps the opcode and the operand bits the
command reads: the data word of an `ACC` is packed from its own lanes, `SETOFF` reads lane 0, the others none. -/
section
namespace Sys2Proof.Machine

section Words
variable {v : Variant}

/-! ## A command word by its fields (R47, R49) -/

theorem decodeWord_encode (i : Instr) :
    decodeWord v (encode v i) = decodeCommand v (opcode i) (operand v i) := by
  rw [decodeWord, encode_opcode, encode_operand]

section Rows
variable {w : BitVec v.commandBits}

theorem decodeWord_of_nop (h : w.extractLsb' 0 2 = 0b00#2) : decodeWord v w = .nop := by
  rw [decodeWord, h, decodeCommand_nop]

theorem decodeWord_of_setoff (h : w.extractLsb' 0 2 = 0b01#2) :
    decodeWord v w = .setoff (offsetField v (w.extractLsb' 2 v.dw)) := by
  rw [decodeWord, h, decodeCommand_setoff]

theorem decodeWord_of_acc (h : w.extractLsb' 0 2 = 0b10#2) :
    decodeWord v w = .acc (lanesOf v (w.extractLsb' 2 v.dw)) := by
  rw [decodeWord, h, decodeCommand_acc]

theorem decodeWord_of_fin (h : w.extractLsb' 0 2 = 0b11#2) : decodeWord v w = .fin := by
  rw [decodeWord, h, decodeCommand_fin]

end Rows

theorem wellFormed_decodeCommand (op : BitVec 2) (d : BitVec v.dw) :
    WellFormed v (decodeCommand v op d) := by
  rcases opcode_cases op with rfl | rfl | rfl | rfl
  · rfl
  · rfl
  · exact (wellFormed_acc_iff _).mpr (length_lanesOf d)
  · rfl

/-! ## A data word is its lanes (R34, R51) -/

/-- Bit `k` of a data word is bit `k % 32` of lane `k / 32`. -/
theorem getLsbD_eq_lane (d : BitVec v.dw) (k : Nat) :
    d.getLsbD k = (lane v d (k / 32)).getLsbD (k % 32) := by
  rw [lane, BitVec.getLsbD_extractLsb', Nat.div_add_mod, decide_eq_true (Nat.mod_lt k (by decide)),
    Bool.true_and]

theorem eq_of_lane_eq {d d' : BitVec v.dw} (h : ∀ j < v.lanes, lane v d j = lane v d' j) : d = d' := by
  apply BitVec.eq_of_getLsbD_eq
  intro k hk
  rw [getLsbD_eq_lane d, getLsbD_eq_lane d', h (k / 32) (Nat.div_lt_of_lt_mul (v.dw_eq ▸ hk))]

/-- Packing the lanes of a data word gives the data word back. -/
theorem operand_acc_lanesOf (d : BitVec v.dw) : operand v (.acc (lanesOf v d)) = d :=
  eq_of_lane_eq fun j hj => by rw [lane_operand_acc _ (length_lanesOf d) j hj, getElem_lanesOf]

/-! ## The bits that decoding and encoding keep (R48, R50, R52, R57) -/

theorem getLsbD_operand_setoff_offsetField (d : BitVec v.dw) (k : Nat) :
    (operand v (.setoff (offsetField v d))).getLsbD k = (d.getLsbD k && decide (k < 32)) := by
  rcases Nat.lt_or_ge k 32 with hlt | hge
  · have hdw : k < v.dw := hlt.trans_le v.word_le_dw
    simp [operand, offsetField, hlt, hdw]
  · rw [getLsbD_operand_setoff_of_ge _ hge, decide_eq_false hge.not_gt, Bool.and_false]

theorem opcode_decodeCommand (op : BitVec 2) (d : BitVec v.dw) : opcode (decodeCommand v op d) = op := by
  rcases opcode_cases op with rfl | rfl | rfl | rfl <;> rfl

/-- `SETOFF` keeps the bits of its offset field, `ACC` every bit, and `NOP` and `FIN` none. -/
theorem getLsbD_operand_decodeCommand (op : BitVec 2) (d : BitVec v.dw) (k : Nat) :
    (operand v (decodeCommand v op d)).getLsbD k =
      (d.getLsbD k && ((decide (op = 0b01#2) && decide (k < 32)) || decide (op = 0b10#2))) := by
  rcases opcode_cases op with rfl | rfl | rfl | rfl
  · simp [decodeCommand_nop, operand]
  · simp [decodeCommand_setoff, getLsbD_operand_setoff_offsetField]
  · simp [decodeCommand_acc, operand_acc_lanesOf]
  · simp [decodeCommand_fin, operand]

theorem getLsbD_encode_of_lt (i : Instr) {k : Nat} (hk : k < 2) :
    (encode v i).getLsbD k = (opcode i).getLsbD k := by
  rw [encode, BitVec.getLsbD_append, if_pos hk]

theorem getLsbD_encode_add_two (i : Instr) (k : Nat) :
    (encode v i).getLsbD (k + 2) = (operand v i).getLsbD k := by
  rw [encode, BitVec.getLsbD_append, if_neg (by omega), Nat.add_sub_cancel]

/-- The operand field of a word holds the bits from bit 2 on. -/
theorem getLsbD_operandField (w : BitVec v.commandBits) (k : Nat) :
    (w.extractLsb' 2 v.dw).getLsbD k = w.getLsbD (k + 2) := by
  rw [BitVec.getLsbD_extractLsb', Nat.add_comm 2 k]
  rcases Nat.lt_or_ge k v.dw with hlt | hge
  · rw [decide_eq_true hlt, Bool.true_and]
  · rw [decide_eq_false hge.not_gt, Bool.false_and, BitVec.getLsbD_of_ge w _ (Nat.add_le_add_right hge 2)]

end Words

/-! ## The claims -/

/-- Settles O4: the word holds the two ports side by side, and the ports decode to the command. -/
theorem decodeInvertsEncode : Obligations.DecodeInvertsEncode := by
  intro v i h
  have hports := decodeInput_present_of_wellFormed h
  rw [decodeInput_present, StepKind.command.injEq] at hports
  exact ⟨(decodeWord_encode i).trans hports, decodeInput_present_of_wellFormed h⟩

/-- Settles O5: bits 0 and 1 are the opcode, and the bits above them are those of the operand. -/
theorem encodeKeepsExactlyTheReadBits : Obligations.EncodeKeepsExactlyTheReadBits := by
  refine fun v w => ⟨wellFormed_decodeCommand _ _, fun k => ?_⟩
  rcases Nat.lt_or_ge k 2 with hlow | hhigh
  · rw [getLsbD_encode_of_lt _ hlow, decodeWord, opcode_decodeCommand, BitVec.getLsbD_extractLsb']
    simp [hlow]
  · obtain ⟨n, rfl⟩ := Nat.exists_eq_add_of_le' hhigh
    have hoffset : n + 2 < 34 ↔ n < 32 := Nat.add_lt_add_iff_right
    rw [getLsbD_encode_add_two, decodeWord, getLsbD_operand_decodeCommand, getLsbD_operandField]
    simp [hoffset]

/-- Settles O2: the opcode field selects the row of the map, and the operand field gives its value. -/
theorem writtenWordsDecode : Obligations.WrittenWordsDecode := by
  refine ⟨congrArg some (decodeWord_of_nop ?nop),
    congrArg some ((decodeWord_of_setoff ?setoff).trans (congrArg Instr.setoff ?off)),
    congrArg some ((decodeWord_of_setoff ?setoffIgnored).trans (congrArg Instr.setoff ?offIgnored)),
    (decodeWord_of_acc ?acc).trans (congrArg Instr.acc ?elems),
    congrArg some (decodeWord_of_fin ?fin), congrArg some (decodeWord_of_fin ?finIgnored)⟩
  all_goals decide +kernel

end Sys2Proof.Machine
end

/-! # The step and its invariant at reset (10_state.md, 44_nop_and_transaction.md)

The machine's step by the step kind that its sampled inputs decode to, without asking what the command does
(R56, R95): whatever places the next inputs, scheduled or by `withFetchWord`, then says which command runs. The
reset registers are the base case of the invariant of R26. -/
section
namespace Sys2Proof.Machine

theorem step_of_command {s : State} {i : Instr}
    (h : decodeInput Config.variant (sampledInput s) = .command i) : step s = exec i (afterSample s) := by
  rw [step, h]

theorem step_of_reset {s : State} (h : decodeInput Config.variant (sampledInput s) = .reset) :
    step s = .next (resetStep (afterSample s)) := by
  rw [step, h]

@[simp] theorem sampledInput_withFetchWord (s : State) (nbits w : Nat) :
    sampledInput (s.withFetchWord nbits w) = presentWord Config.variant (tableWord nbits w) := rfl

@[simp] theorem afterSample_withFetchWord (s : State) (nbits w : Nat) :
    afterSample (s.withFetchWord nbits w) = ⟨s.regs, s.inputs.tail⟩ := rfl

/-! ## The claims -/

/-- Settles O31: the head of the schedule is what is sampled, and an empty schedule samples the idle inputs. -/
theorem stepRunsTheDecodedCommand : Obligations.StepRunsTheDecodedCommand := by
  refine fun r inp rest => ⟨fun i h => step_of_command h, fun h => step_of_reset h, ?unscheduled⟩
  case unscheduled =>
    have hidle : decodeInput Config.variant (sampledInput ⟨r, []⟩) = .command .nop :=
      decodeInput_idle _ rfl rfl
    rw [step_of_command hidle, exec_nop]
    rfl

/-- Settles O32: the placed inputs decode to what `decodeTableWord` answers. -/
theorem placedWordRunsNext : Obligations.PlacedWordRunsNext := by
  refine fun s nbits w => ⟨decodeWord Config.variant (tableWord nbits w), rfl, ?_⟩
  rw [step_of_command (decodeInput_presentWord _), afterSample_withFetchWord]

/-- Settles O37: the registers of `State.reset` are the reset registers of this hardware. -/
theorem resetSatisfiesTheInvariant : Obligations.ResetSatisfiesTheInvariant :=
  ⟨regsInv_reset Config.variant, regsInv_reset⟩

end Sys2Proof.Machine
end
